-- ==== Sys2Proof/Word.lean ====
section
/-! DEFINITION. The types of spec/00_scope.md rule R11 and the fixed sizes of rule R1. -/

namespace Sys2Proof

/-- A Byte, 0..255 (R11). Bit 0 is the least significant bit. -/
abbrev Byte := BitVec 8

/-- A Word, 0..2^32-1 (R11). `+` and `-` are `+32` and `-32` of R12, `^^^` is `^`. -/
abbrev Word := BitVec 32

/-- A DWord, an unsigned 64-bit integer (R11). -/
abbrev DWord := BitVec 64

/-- A host address, 32 bits, byte addressed (R51, R53). -/
abbrev Addr := BitVec 32

/-- Sixteen bytes: a key (R20), a block (R18, R24) or an IV. Index 0 is the first byte. -/
abbrev Block := Vector Byte 16

/-- The RoundKeySchedule: 32 Words, 16 round-key pairs (R18, R21). -/
abbrev RoundKeys := Vector Word 32

end Sys2Proof
end

