-- ==== Sys2Proof/Syntax.lean ====
section
/-! DEFINITION. The commands of SFC128 (spec/30_encoding.md rule R81), one constructor per row of spec/opcode_table.json.
No command carries an operand (R82). -/

namespace Sys2Proof

/-- The twelve commands, in the order of the opcode map R81. -/
inductive Instr where
  /-- 0x01 KEYCLR: set the default (all-zero) key (R100). -/
  | keyclr
  /-- 0x02 KEYSET: replace the key by the first 16 bytes of IBUF (R101). -/
  | keyset
  /-- 0x03 KEYGEN: replace the key by 16 random bytes (R103). -/
  | keygen
  /-- 0x04 KEYGET: copy the key to the output buffer (R104). -/
  | keyget
  /-- 0x10 ENCB: encrypt the block register in place (R144). -/
  | encb
  /-- 0x11 DECB: decrypt the block register in place (R145). -/
  | decb
  /-- 0x20 PADADD: pad the input buffer into the output buffer (R152). -/
  | padadd
  /-- 0x21 PADREM: validate and strip the padding of the input buffer (R153). -/
  | padrem
  /-- 0x30 IVGEN: produce 16 random bytes (R160). -/
  | ivgen
  /-- 0x40 CBCENC: encrypt the input buffer into an IV-prefixed envelope (R162). -/
  | cbcenc
  /-- 0x41 CBCDEC: decrypt the envelope in the input buffer (R165). -/
  | cbcdec
  /-- 0x50 ICLR: empty the input buffer (R168). -/
  | iclr
  deriving DecidableEq, Repr

end Sys2Proof
end

