-- ==== Sys2Proof/Decode.lean ====
section
/-! DEFINITION. Decoding and encoding of commands: one format C8, one byte, the opcode (spec/30_encoding.md rules R80, R81,
R84). -/

namespace Sys2Proof

/-- Why a byte is no command. -/
inductive DecodeError where
  /-- One of the 244 opcode values not in R81 (R83). -/
  | illegalOpcode (b : Byte)
  deriving DecidableEq, Repr

/-- A row of the opcode map: `match` and `mask` over the 8-bit command byte (R81). -/
structure OpcodeRow where
  pattern : Byte
  mask : Byte
  instr : Instr
  deriving DecidableEq, Repr

/-- The opcode map R81, in the table's order; every mask is 0xFF. -/
def opcodeTable : List OpcodeRow :=
  [⟨0x01, 0xFF, .keyclr⟩, ⟨0x02, 0xFF, .keyset⟩, ⟨0x03, 0xFF, .keygen⟩, ⟨0x04, 0xFF, .keyget⟩,
   ⟨0x10, 0xFF, .encb⟩, ⟨0x11, 0xFF, .decb⟩, ⟨0x20, 0xFF, .padadd⟩, ⟨0x21, 0xFF, .padrem⟩,
   ⟨0x30, 0xFF, .ivgen⟩, ⟨0x40, 0xFF, .cbcenc⟩, ⟨0x41, 0xFF, .cbcdec⟩, ⟨0x50, 0xFF, .iclr⟩]

/-- "A decoder reads one byte and looks it up in rule R81" (R84). -/
def decode (b : Byte) : Except DecodeError Instr :=
  match opcodeTable.find? (fun r => b &&& r.mask == r.pattern) with
  | some r => .ok r.instr
  | none => .error (.illegalOpcode b)

/-- The opcode byte of a command (R81). -/
def encode (i : Instr) : Byte :=
  match i with
  | .keyclr => 0x01
  | .keyset => 0x02
  | .keygen => 0x03
  | .keyget => 0x04
  | .encb => 0x10
  | .decb => 0x11
  | .padadd => 0x20
  | .padrem => 0x21
  | .ivgen => 0x30
  | .cbcenc => 0x40
  | .cbcdec => 0x41
  | .iclr => 0x50

/-- The host's question in the opcode table's numbering: the command that the `nbits` bits `w` decode to. "All commands have
the same length (8 bits)" (R80), so no other length is a command. Log entry 10. -/
def decodeTableWord (nbits w : Nat) : Option Instr :=
  if nbits = 8 ∧ w < 256 then (decode (BitVec.ofNat 8 w)).toOption else none

end Sys2Proof
end

