-- ==== Sys2Proof/Config.lean ====
section
/-! DEFINITION. The implementation parameters of spec/00_scope.md rule R9: the substitution tables, the round constants,
the buffer capacity and the randomness stream. The spec gives none of them a value ("None is given a value by RS"), so each
is a constant with no body: what is proved holds for every value. -/

namespace Sys2Proof

/-- The parameters of R9, as an argument of the pure functions and of the commands' effects. The machine uses
`Config.params`; the tests use the configurations of spec/95_test_vectors.md section 2. -/
structure Params where
  /-- `SS[j][b]`, the four substitution tables (R9, R31, R121). -/
  SS : Fin 4 → Byte → Word
  /-- `KC[i]`, the sixteen round constants (R9, R135). -/
  KC : Fin 16 → Word
  /-- `BUFCAP`, the capacity of IBUF in bytes (R9, R58). -/
  bufcap : Nat
  /-- The randomness oracle: `draw n` answers the n-th `Draw()`, counted from 0 (R9, R34). -/
  draw : Nat → Byte

/-- The tables of this hardware: any four (R9, R121; 92_eei_decisions.md D14). Log entry 1. -/
opaque Config.SS : Fin 4 → Byte → Word

/-- The round constants of this hardware: any sixteen Words (R9, R135; D14). Log entry 1. -/
opaque Config.KC : Fin 16 → Word

/-- How far BUFCAP lies above its lower bound 32: any value with `32 <= BUFCAP <= 2^30 - 32` (R9; D10). Log entry 2. -/
opaque Config.bufcapOffset : Fin 1073741761

/-- The answers of the randomness oracle: any stream of bytes, under no law (R34; D8). Log entry 3. -/
opaque Config.draw : Nat → Byte

/-- The parameters of the machine. -/
def Config.params : Params where
  SS := Config.SS
  KC := Config.KC
  bufcap := 32 + Config.bufcapOffset.val
  draw := Config.draw

end Sys2Proof
end

