-- ==== Sys2Proof/Machine/Bytes.lean ====
section
/-! DEFINITION. Word packing, pair rotation and byte-sequence operators (spec/00_scope.md rules R13, R14, R15, R16). -/

namespace Sys2Proof.Machine

/-- The 16-byte sequence with byte `f i` at index `i`. -/
def bytes16 (f : Fin 16 → Byte) : Block :=
  #v[f 0, f 1, f 2, f 3, f 4, f 5, f 6, f 7, f 8, f 9, f 10, f 11, f 12, f 13, f 14, f 15]

/-- `BE32(b0,b1,b2,b3)`: the first byte is the most significant (R13). -/
def be32 (b0 b1 b2 b3 : Byte) : Word := b0 ++ b1 ++ b2 ++ b3

/-- Byte `k` of `UNBE32(w)`: byte 0 is `w[31:24]`, byte 3 is `w[7:0]` (R13). -/
def unbe32 (w : Word) (k : Fin 4) : Byte := w.extractLsb' (24 - 8 * k.val) 8

/-- `W(s,k) = BE32(s[4k], s[4k+1], s[4k+2], s[4k+3])` (R13). -/
def wordAt (s : Block) (k : Fin 4) : Word :=
  be32 (s[4 * k.val]'(by omega)) (s[4 * k.val + 1]'(by omega)) (s[4 * k.val + 2]'(by omega)) (s[4 * k.val + 3]'(by omega))

/-- `PAIR(A,B) = A*2^32 + B` (R14). -/
def pair (hi lo : Word) : DWord := hi ++ lo

/-- `HI(v) = v[63:32]` (R14). -/
def hiWord (v : DWord) : Word := v.extractLsb' 32 32

/-- `LO(v) = v[31:0]` (R14). -/
def loWord (v : DWord) : Word := v.extractLsb' 0 32

/-- `rotl64(v,8) = ((v << 8) mod 2^64) + (v >> 56)` (R14). -/
def rotl8 (v : DWord) : DWord := (v <<< 8) + (v >>> 56)

/-- `rotr64(v,8) = (v >> 8) + ((v mod 2^8) << 56)` (R14). -/
def rotr8 (v : DWord) : DWord := (v >>> 8) + ((v &&& 0xFF) <<< 56)

/-- `xor16(s,t)`: byte i is `s[i] ^ t[i]` (R15). -/
def xor16 (s t : Block) : Block := bytes16 fun i => s[i] ^^^ t[i]

/-- Sixteen zero bytes, the default key (R100) and the reset value of BLK (R36). -/
def zeroBlock : Block := bytes16 fun _ => 0

/-- `MemRead(X, a, n)` is `X[a..a+n)`; the rules call it only with `a + n <= len X` (R16, R69). -/
def memRead (s : List Byte) (a n : Nat) : List Byte := (s.drop a).take n

/-- The first sixteen bytes of a sequence as a block. It is only used on sequences of at least 16 bytes: KEYSET tests
`ILEN < 16` first and the CBC rules take whole blocks, so the 0 stands for no byte of the spec. Log entry 8. -/
def blockOf (s : List Byte) : Block := bytes16 fun i => s.getD i.val 0

/-- Block j of a sequence: bytes 16j .. 16j+15 (R69). -/
def blockAt (s : List Byte) (j : Nat) : Block := blockOf (memRead s (16 * j) 16)

/-- The first `m` blocks of a sequence, in ascending block index (R161, R164). -/
def blocks : Nat → List Byte → List Block
  | 0, _ => []
  | m + 1, s => blockOf s :: blocks m (s.drop 16)

/-- The sixteen answers of the oracle from position `n` on, assigned to byte index 0, 1, .., 15 in that order (R34). -/
def draws16 (c : Params) (n : Nat) : Block := bytes16 fun i => c.draw (n + i.val)

/-- Byte `k` of a length register: `n[31-8k : 24-8k]`, most significant byte first (R55). -/
def lengthByte (n : Nat) (k : Fin 4) : Byte := unbe32 (BitVec.ofNat 32 n) k

end Sys2Proof.Machine
end

