-- ==== Sys2Proof/Machine/Round.lean ====
section
/-! DEFINITION. The round unit: the substitution function G and the Feistel round function F
(spec/41_substitution_round.md rules R120 and R122). -/

namespace Sys2Proof.Machine

/-- `G(x)` (R120): the most significant byte x0 indexes SS[0], the least significant byte x3 indexes SS[3]. The pairing is
the source's and normative (90_conflicts.md C1). -/
def G (c : Params) (x : Word) : Word :=
  let x0 := x.extractLsb' 24 8
  let x1 := x.extractLsb' 16 8
  let x2 := x.extractLsb' 8 8
  let x3 := x.extractLsb' 0 8
  c.SS 0 x0 ^^^ c.SS 1 x1 ^^^ c.SS 2 x2 ^^^ c.SS 3 x3

/-- `F(Ki0, Ki1, R0, R1)` (R122): one Word out, the final T1 is discarded. -/
def F (c : Params) (ki0 ki1 r0 r1 : Word) : Word :=
  let T0 := r0 ^^^ ki0
  let T1 := r1 ^^^ ki1
  let T1 := T1 ^^^ T0
  let T1 := G c T1
  let T0 := T0 + T1
  let T0 := G c T0
  let T1 := T1 + T0
  let T1 := G c T1
  T0 + T1

/-- The sixteen round indices in ascending order (R27). -/
def rounds : List (Fin 16) := [0, 1, 2, 3, 4, 5, 6, 7, 8, 9, 10, 11, 12, 13, 14, 15]

end Sys2Proof.Machine
end

