-- ==== Sys2Proof/Machine/Schedule.lean ====
section
/-! DEFINITION. The key schedule engine (spec/42_key_schedule.md rule R130). -/

namespace Sys2Proof.Machine

/-- The working copies K0..K3 of the key words, temporaries of one command (R131). -/
structure KeyWords where
  K0 : Word
  K1 : Word
  K2 : Word
  K3 : Word
  deriving DecidableEq, Repr

/-- The 16-byte key as four big-endian words (R130). -/
def keyWords (k : Block) : KeyWords := ⟨wordAt k 0, wordAt k 1, wordAt k 2, wordAt k 3⟩

/-- `T0 = (K0 +32 K2) -32 KC[i]` (R130). -/
def scheduleT0 (c : Params) (k : KeyWords) (i : Fin 16) : Word := k.K0 + k.K2 - c.KC i

/-- `T1 = (K1 -32 K3) +32 KC[i]` (R130). -/
def scheduleT1 (c : Params) (k : KeyWords) (i : Fin 16) : Word := k.K1 - k.K3 + c.KC i

/-- The rotation after round i: i even, the pair (K0,K1) left by 8; i odd, the pair (K2,K3) right by 8, K2 the more
significant word (R130, R133, R134; 92_eei_decisions.md D13). -/
def rotateKeyWords (k : KeyWords) (i : Fin 16) : KeyWords :=
  if i.val % 2 = 0 then
    let v := rotl8 (pair k.K0 k.K1)
    { k with K0 := hiWord v, K1 := loWord v }
  else
    let v := rotr8 (pair k.K2 k.K3)
    { k with K2 := hiWord v, K3 := loWord v }

/-- The round-key words of the rounds listed, computed from the words before each round's rotation (R130). -/
def scheduleFrom (c : Params) : KeyWords → List (Fin 16) → List Word
  | _, [] => []
  | k, i :: is => G c (scheduleT0 c k i) :: G c (scheduleT1 c k i) :: scheduleFrom c (rotateKeyWords k i) is

/-- Each round gives one pair of words (R130). -/
theorem scheduleFrom_length (c : Params) (k : KeyWords) (is : List (Fin 16)) :
    (scheduleFrom c k is).length = 2 * is.length := by
  induction is generalizing k with
  | nil => rfl
  | cons i is ih => simp [scheduleFrom, ih]; omega

/-- `KeySchedule(k)` (R130): 32 Words, `rk[2i]` and `rk[2i+1]` from round i. -/
def keySchedule (c : Params) (k : Block) : RoundKeys :=
  ⟨(scheduleFrom c (keyWords k) rounds).toArray, by simp [scheduleFrom_length, rounds]⟩

end Sys2Proof.Machine
end

