-- ==== Sys2Proof/Machine/Block.lean ====
section
/-! DEFINITION. Single-block encryption and decryption (spec/43_block_cipher.md rules R140, R141, R142). -/

namespace Sys2Proof.Machine

/-- The four words of a block during a transform: (L0,L1) the left half, (R0,R1) the right half (R140). -/
structure BlockWords where
  L0 : Word
  L1 : Word
  R0 : Word
  R1 : Word
  deriving DecidableEq, Repr

/-- A block of 16 bytes read as four words (R140). -/
def blockWords (b : Block) : BlockWords := ⟨wordAt b 0, wordAt b 1, wordAt b 2, wordAt b 3⟩

/-- `UNBE32(w0) ++ UNBE32(w1) ++ UNBE32(w2) ++ UNBE32(w3)` (R140). -/
def packWords (w0 w1 w2 w3 : Word) : Block :=
  #v[unbe32 w0 0, unbe32 w0 1, unbe32 w0 2, unbe32 w0 3, unbe32 w1 0, unbe32 w1 1, unbe32 w1 2, unbe32 w1 3,
     unbe32 w2 0, unbe32 w2 1, unbe32 w2 2, unbe32 w2 3, unbe32 w3 0, unbe32 w3 1, unbe32 w3 2, unbe32 w3 3]

/-- One Feistel round with the round-key pair i (R141): the same Word f goes into both left words, the old right half
becomes the left half. All four updates use the values from before the round. -/
def feistelRound (c : Params) (rk : RoundKeys) (w : BlockWords) (i : Fin 16) : BlockWords :=
  let f := F c (rk[2 * i.val]'(by omega)) (rk[2 * i.val + 1]'(by omega)) w.R0 w.R1
  ⟨w.R0, w.R1, w.L0 ^^^ f, w.L1 ^^^ f⟩

/-- The output of both transforms: `R0 || R1 || L0 || L1` (R141). -/
def outputBlock (w : BlockWords) : Block := packWords w.R0 w.R1 w.L0 w.L1

/-- `EncryptBlock(rk, b)`: rounds 0 to 15 (R141). -/
def encryptBlock (c : Params) (rk : RoundKeys) (b : Block) : Block :=
  outputBlock (rounds.foldl (feistelRound c rk) (blockWords b))

/-- `DecryptBlock(rk, b)`: the same rounds, 15 down to 0, each pair in its own order (R142). -/
def decryptBlock (c : Params) (rk : RoundKeys) (b : Block) : Block :=
  outputBlock (rounds.reverse.foldl (feistelRound c rk) (blockWords b))

end Sys2Proof.Machine
end

