-- ==== Sys2Proof/Machine/Moves.lean ====
section
/-! DEFINITION. What the outside world can do to SFC128 (the two host moves of spec/20_memory.md rule R51, and reset,
spec/70_reset_and_hazards.md rule R210), and the address map of rule R53. -/

namespace Sys2Proof.Machine

/-- The host's two kinds of move; every access is one byte wide (R51). -/
inductive HostMove where
  /-- `HostWrite(addr, b)`. -/
  | write (addr : Addr) (b : Byte)
  /-- `HostRead(addr) -> b`. -/
  | read (addr : Addr)
  deriving DecidableEq, Repr

/-- What arrives from outside between two steps: a host move (R50, R51) or the reset event (R210). Log entries 4 and 6. -/
inductive Input where
  | move (m : HostMove)
  | reset
  deriving DecidableEq, Repr

/-- What a host address stands for (R53). -/
inductive Region where
  /-- `CMD`, write only: writing an opcode executes it. -/
  | cmd
  /-- `STATUS`, read only. -/
  | status
  /-- `IDATA`, write only: appends to IBUF. -/
  | idata
  /-- Byte `k` of `ILEN`, read only, the most significant byte is byte 0 (R55). -/
  | ilen (k : Fin 4)
  /-- Byte `k` of `OLEN`, read only, the most significant byte is byte 0 (R55). -/
  | olen (k : Fin 4)
  /-- `BLK[i]`, read and write (R56). -/
  | blk (i : Fin 16)
  /-- Index `i` of the `OBUF` window, read only, mapped when `i < OLEN` (R57). -/
  | window (i : Nat)
  /-- No register stands here. -/
  | unmapped
  deriving DecidableEq, Repr

/-- The address map R53. -/
def region (a : Addr) : Region :=
  let n := a.toNat
  if n = 0 then .cmd
  else if n = 1 then .status
  else if n = 2 then .idata
  else if h : 4 ≤ n ∧ n < 8 then .ilen ⟨n - 4, by omega⟩
  else if h : 8 ≤ n ∧ n < 12 then .olen ⟨n - 8, by omega⟩
  else if h : 16 ≤ n ∧ n < 32 then .blk ⟨n - 16, by omega⟩
  else if 0x40000000 ≤ n then .window (n - 0x40000000)
  else .unmapped

end Sys2Proof.Machine
end

