-- ==== Sys2Proof/Machine/State.lean ====
section
/-! DEFINITION. The state of SFC128 (spec/10_state.md), its reasons to stop, and the state after reset (rule R36). -/

namespace Sys2Proof.Machine

/-- SFC128 has no fault that stops it: "from every reachable state every legal host move has exactly one successor state"
(93_implementation_defined.md part 1), and the errors of R180 are codes in STATUS.ERR after which the machine goes on
(R184). So nothing raises a fault. Log entry 7. -/
inductive Fault where
  deriving DecidableEq, Repr

/-- Why a step is refused. Except the first, each is a host access to which R51 gives no meaning: "the spec gives it no
meaning and a model gives it no step". All are safe: the machine stops where the hardware has no defined behaviour. -/
inductive Refusal where
  /-- Raised by `exec` for a command without a meaning yet (none is left). Safe. -/
  | notModelled (mnemonic : String)
  /-- Raised by `hostRead` and `hostWrite` at an address that is not in the map R53. Safe. -/
  | unmapped (addr : Addr)
  /-- Raised by `hostRead` at CMD or IDATA, which are write only (R53). Safe. -/
  | readOfWriteOnly (addr : Addr)
  /-- Raised by `hostWrite` at STATUS, ILEN, OLEN or the OBUF window, which are read only (R53). Safe. -/
  | writeOfReadOnly (addr : Addr)
  /-- Raised by `hostRead` in the OBUF window at or beyond OLEN (R57). Safe. -/
  | windowBeyondOlen (addr : Addr)
  /-- Raised by `hostWrite` at IDATA when IBUF is full (R54). Safe. -/
  | ibufFull
  deriving DecidableEq, Repr

/-- All state of SFC128 (10_state.md section 1), and three fields of the model's own at the end. -/
structure State where
  /-- KEY, 16 bytes (R20). -/
  key : Block
  /-- RK, 32 words, the schedule of KEY (R21). -/
  rk : RoundKeys
  /-- BLK, the block register (R24). -/
  blk : Block
  /-- IBUF; ILEN is its length (R26). -/
  ibuf : List Byte
  /-- OBUF; OLEN is its length (R26). -/
  obuf : List Byte
  /-- STATUS.ERR, the result code of the most recent command (R28). STATUS.KV is not stored. -/
  err : BitVec 4
  /-- The model's own: how many draws the oracle has answered (R34). Log entry 3. -/
  draws : Nat
  /-- The model's own: what the outside world does next, oldest first (R27, R51). Log entry 4. -/
  inputs : List Input
  /-- The model's own: the bytes the host has read, oldest first (R221). Log entry 5. -/
  reads : List Byte
  deriving DecidableEq, Repr

/-- The reset values R36, for given parameters. The three fields of the model's own are DESIGN CHOICE (log entries 3, 4
and 5). -/
def State.resetWith (c : Params) : State where
  key := zeroBlock
  rk := keySchedule c zeroBlock
  blk := zeroBlock
  ibuf := []
  obuf := []
  err := 0
  draws := 0
  inputs := []
  reads := []

/-- The machine right after reset (R36). -/
def State.reset : State := State.resetWith Config.params

end Sys2Proof.Machine
end

