-- ==== Sys2Proof/Machine/Flags.lean ====
section
/-! DEFINITION. The STATUS register (spec/10_state.md rules R22, R28) and the error kinds with their codes
(spec/60_exceptions.md rule R180). There are no arithmetic flags (R29). -/

namespace Sys2Proof.Machine

/-- The error kinds of R180. No error records any other value. -/
inductive ErrorKind where
  /-- KEYSET with ILEN < 16 (R101). -/
  | keyLoad
  /-- CBCDEC with ILEN < 32 (R164). -/
  | envelopeTooShort
  /-- CBCDEC with ILEN >= 32 and (ILEN - 16) mod 16 not 0 (R164). -/
  | envelopeMisaligned
  /-- RemovePadding fails, in PADREM or CBCDEC (R151). -/
  | padding
  /-- A write to CMD of an opcode not in R81 (R83). -/
  | illegalCommand
  deriving DecidableEq, Repr

/-- `STATUS.ERR` after a command that completes (R180). -/
def okCode : BitVec 4 := 0

/-- `code(E)` (R180). -/
def ErrorKind.code (e : ErrorKind) : BitVec 4 :=
  match e with
  | .keyLoad => 1
  | .envelopeTooShort => 2
  | .envelopeMisaligned => 3
  | .padding => 4
  | .illegalCommand => 15

/-- `IsValid(k)`: some byte is not zero (R22). -/
def isValid (k : Block) : Bool := decide (∃ i : Fin 16, k[i] ≠ 0)

/-- The STATUS byte: bit 7 KV, recomputed from KEY; bits 6:4 zero; bits 3:0 ERR (R28). -/
def statusByte (s : State) : Byte := BitVec.ofBool (isValid s.key) ++ (0 : BitVec 3) ++ s.err

end Sys2Proof.Machine
end

