-- ==== Sys2Proof/Machine/Operands.lean ====
section
/-! DEFINITION. The implicit operands of the commands (spec/30_encoding.md rule R82, spec/20_memory.md rule R69): the whole
of IBUF, its first 16 bytes, and sixteen draws. BLK, KEY and RK are read as fields. -/

namespace Sys2Proof.Machine

/-- `ILEN`, the length of IBUF (R26). -/
def State.ilen (s : State) : Nat := s.ibuf.length

/-- `OLEN`, the length of OBUF (R26). -/
def State.olen (s : State) : Nat := s.obuf.length

/-- `MemRead(IBUF, 0, 16)` as a key (R101); used only when `16 <= ILEN`. -/
def State.keyOperand (s : State) : Block := blockOf (memRead s.ibuf 0 16)

/-- The answers to the next sixteen `Draw()` calls (R34). -/
def State.nextDraws (c : Params) (s : State) : Block := draws16 c s.draws

end Sys2Proof.Machine
end

