-- ==== Sys2Proof/Machine/Ops.lean ====
section
/-! DEFINITION. The named operations over the state that the commands share: replacing the key, producing output, raising
an error (the machine's only exception, spec/60_exceptions.md rule R184), and the reset event. -/

namespace Sys2Proof.Machine

/-- `STATUS.ERR <- 0`, the end of every command that completes (R88). -/
def State.succeed (s : State) : State := { s with err := okCode }

/-- `raise E` (R184): ERR gets the code, an output-producing command empties OBUF, nothing else changes. There is no
handler, no saved state and hence no return (R188). -/
def State.raise (e : ErrorKind) (outputProducing : Bool) (s : State) : State :=
  { s with err := e.code, obuf := if outputProducing then [] else s.obuf }

/-- The key and the whole of RK are written in the same atomic command (R106). -/
def State.replaceKey (c : Params) (k : Block) (s : State) : State := { s with key := k, rk := keySchedule c k }

/-- `BLK <- b`. -/
def State.setBlk (b : Block) (s : State) : State := { s with blk := b }

/-- `IBUF <- b`. -/
def State.setIbuf (b : List Byte) (s : State) : State := { s with ibuf := b }

/-- `OBUF <- b`: the output buffer is only ever replaced whole (R26). -/
def State.setObuf (b : List Byte) (s : State) : State := { s with obuf := b }

/-- Sixteen `Draw()` calls have been answered (R34). -/
def State.consumeDraws (s : State) : State := { s with draws := s.draws + 16 }

/-- The value a HostRead returned goes to the host. Log entry 5. -/
def State.logRead (b : Byte) (s : State) : State := { s with reads := s.reads ++ [b] }

/-- The common template R88 for an output-producing command whose rule may raise: the result replaces OBUF, or the error
empties it. -/
def State.produce (r : Except ErrorKind (List Byte)) (s : State) : State :=
  match r with
  | .ok out => (s.setObuf out).succeed
  | .error e => s.raise e true

/-- The reset event (R210): every piece of state gets its value of R36. It makes no draw (R211), and what the outside world
holds (its further inputs, what it has read, the oracle's position) is not the block's to reset. Log entry 6. -/
def State.resetEvent (c : Params) (s : State) : State :=
  { State.resetWith c with draws := s.draws, inputs := s.inputs, reads := s.reads }

end Sys2Proof.Machine
end

