-- ==== Sys2Proof/Machine/BlockCommands.lean ====
section
/-! DEFINITION. The single-block commands ENCB and DECB (spec/43_block_cipher.md rules R144, R145). -/

namespace Sys2Proof.Machine

/-- ENCB: `BLK <- EncryptBlock(RK, BLK)` (R144). -/
def encb (c : Params) (s : State) : State := (s.setBlk (encryptBlock c s.rk s.blk)).succeed

/-- DECB: `BLK <- DecryptBlock(RK, BLK)` (R145). -/
def decb (c : Params) (s : State) : State := (s.setBlk (decryptBlock c s.rk s.blk)).succeed

/-- The meaning of ENCB (R144). -/
def execEncb (s : State) : Host.Outcome State Fault Refusal := .next (encb Config.params s)

/-- The meaning of DECB (R145). -/
def execDecb (s : State) : Host.Outcome State Fault Refusal := .next (decb Config.params s)

end Sys2Proof.Machine
end

