-- ==== Sys2Proof/Machine/Padding.lean ====
section
/-! DEFINITION. The PKCS7 padder and padding validator (spec/44_padding.md rules R150, R151). -/

namespace Sys2Proof.Machine

/-- `p = 16 - (n mod 16)`, in 1..16 (R150). The source's test `p == 0` can never succeed and is left out, as R150 allows
(90_conflicts.md C4). Log entry 9. -/
def padLength (n : Nat) : Nat := 16 - n % 16

/-- `AddPadding(s)`: p bytes, each of value p (R150). -/
def addPadding (s : List Byte) : List Byte :=
  s ++ List.replicate (padLength s.length) (BitVec.ofNat 8 (padLength s.length))

/-- `RemovePadding(s)` (R151), the five tests in the rule's order. -/
def removePadding (s : List Byte) : Except ErrorKind (List Byte) :=
  match s.getLast? with
  | none => .error .padding
  | some last =>
    let p := last.toNat
    if p = 0 then .error .padding
    else if 16 < p then .error .padding
    else if s.length < p then .error .padding
    else if (s.drop (s.length - p)).all (fun b => b == last) then .ok (s.take (s.length - p))
    else .error .padding

end Sys2Proof.Machine
end

