-- ==== Sys2Proof/Machine/Cbc.lean ====
section
/-! DEFINITION. The CBC controller's two functions (spec/45_iv_cbc.md rules R161, R164). -/

namespace Sys2Proof.Machine

/-- The loop of R161: each plaintext block XOR the previous envelope block, encrypted. -/
def encryptChain (c : Params) (rk : RoundKeys) : Block → List Block → List Byte
  | _, [] => []
  | prev, b :: bs =>
    let y := encryptBlock c rk (xor16 b prev)
    y.toList ++ encryptChain c rk y bs

/-- `CbcEncrypt(rk, s, iv)`: the envelope `IV || C1 || C2 ...` (R161). -/
def cbcEncrypt (c : Params) (rk : RoundKeys) (s : List Byte) (iv : Block) : List Byte :=
  let P := addPadding s
  iv.toList ++ encryptChain c rk iv (blocks (P.length / 16) P)

/-- The loop of R164: each block decrypted and XORed with the previous envelope block; the next previous block is the
ciphertext, not its decryption. -/
def decryptChain (c : Params) (rk : RoundKeys) : Block → List Block → List Byte
  | _, [] => []
  | prev, b :: bs => (xor16 (decryptBlock c rk b) prev).toList ++ decryptChain c rk b bs

/-- The assembled plaintext `acc` of an envelope, before its padding is removed (R164). -/
def assembledPlaintext (c : Params) (rk : RoundKeys) (e : List Byte) : List Byte :=
  decryptChain c rk (blockAt e 0) (blocks (e.length / 16 - 1) (e.drop 16))

/-- `CbcDecrypt(rk, e)`: too short first, misaligned second, padding last (R164, R186). -/
def cbcDecrypt (c : Params) (rk : RoundKeys) (e : List Byte) : Except ErrorKind (List Byte) :=
  if e.length < 32 then .error .envelopeTooShort
  else if (e.length - 16) % 16 ≠ 0 then .error .envelopeMisaligned
  else removePadding (assembledPlaintext c rk e)

end Sys2Proof.Machine
end

