-- ==== Sys2Proof/Machine/CbcCommands.lean ====
section
/-! DEFINITION. The IV generator, the CBC commands and ICLR (spec/45_iv_cbc.md rules R160, R162, R165, R168). -/

namespace Sys2Proof.Machine

/-- IVGEN: sixteen draws go to OBUF (R160). -/
def ivgen (c : Params) (s : State) : State := (s.produce (.ok (s.nextDraws c).toList)).consumeDraws

/-- CBCENC: `OBUF <- CbcEncrypt(RK, IBUF, iv)` with sixteen fresh draws as the IV (R162). -/
def cbcenc (c : Params) (s : State) : State :=
  (s.produce (.ok (cbcEncrypt c s.rk s.ibuf (s.nextDraws c)))).consumeDraws

/-- CBCDEC: `OBUF <- CbcDecrypt(RK, IBUF)`, or one of three errors with OBUF emptied (R165). -/
def cbcdec (c : Params) (s : State) : State := s.produce (cbcDecrypt c s.rk s.ibuf)

/-- ICLR: `IBUF <- <>` (R168). -/
def iclr (s : State) : State := (s.setIbuf []).succeed

/-- The meaning of IVGEN (R160). -/
def execIvgen (s : State) : Host.Outcome State Fault Refusal := .next (ivgen Config.params s)

/-- The meaning of CBCENC (R162). -/
def execCbcenc (s : State) : Host.Outcome State Fault Refusal := .next (cbcenc Config.params s)

/-- The meaning of CBCDEC (R165). -/
def execCbcdec (s : State) : Host.Outcome State Fault Refusal := .next (cbcdec Config.params s)

/-- The meaning of ICLR (R168). -/
def execIclr (s : State) : Host.Outcome State Fault Refusal := .next (iclr s)

end Sys2Proof.Machine
end

