-- ==== Sys2Proof/Machine/KeyCommands.lean ====
section
/-! DEFINITION. The key register commands KEYCLR, KEYSET, KEYGEN, KEYGET (spec/40_key_material.md). Each has its effect
for any parameters, and its meaning for the machine's. -/

namespace Sys2Proof.Machine

/-- KEYCLR: set the all-zero key (R100). -/
def keyclr (c : Params) (s : State) : State := (s.replaceKey c zeroBlock).succeed

/-- KEYSET: the first 16 bytes of IBUF become the key; fewer are a KeyLoadError, which leaves OBUF alone because KEYSET is
not output-producing (R101). -/
def keyset (c : Params) (s : State) : State :=
  if s.ilen < 16 then s.raise .keyLoad false else (s.replaceKey c s.keyOperand).succeed

/-- KEYGEN: sixteen draws become the key (R103). -/
def keygen (c : Params) (s : State) : State := (s.replaceKey c (s.nextDraws c)).consumeDraws.succeed

/-- KEYGET: the key goes to OBUF (R104). -/
def keyget (s : State) : State := s.produce (.ok s.key.toList)

/-- The meaning of KEYCLR (R100). -/
def execKeyclr (s : State) : Host.Outcome State Fault Refusal := .next (keyclr Config.params s)

/-- The meaning of KEYSET (R101). -/
def execKeyset (s : State) : Host.Outcome State Fault Refusal := .next (keyset Config.params s)

/-- The meaning of KEYGEN (R103). -/
def execKeygen (s : State) : Host.Outcome State Fault Refusal := .next (keygen Config.params s)

/-- The meaning of KEYGET (R104). -/
def execKeyget (s : State) : Host.Outcome State Fault Refusal := .next (keyget s)

end Sys2Proof.Machine
end

