-- ==== Sys2Proof/Machine/PaddingCommands.lean ====
section
/-! DEFINITION. The padding commands PADADD and PADREM (spec/44_padding.md rules R152, R153). -/

namespace Sys2Proof.Machine

/-- PADADD: `OBUF <- AddPadding(IBUF)` (R152). -/
def padadd (s : State) : State := s.produce (.ok (addPadding s.ibuf))

/-- PADREM: `OBUF <- RemovePadding(IBUF)`, or a PaddingError with OBUF emptied (R153). -/
def padrem (s : State) : State := s.produce (removePadding s.ibuf)

/-- The meaning of PADADD (R152). -/
def execPadadd (s : State) : Host.Outcome State Fault Refusal := .next (padadd s)

/-- The meaning of PADREM (R153). -/
def execPadrem (s : State) : Host.Outcome State Fault Refusal := .next (padrem s)

end Sys2Proof.Machine
end

