-- ==== Sys2Proof/Machine/Dispatch.lean ====
section
/-! DEFINITION. One arm per command of the opcode map R81. -/

namespace Sys2Proof.Machine

def exec (i : Instr) (s : State) : Host.Outcome State Fault Refusal :=
  match i with
  | .keyclr => Sys2Proof.Machine.execKeyclr s
  | .keyset => Sys2Proof.Machine.execKeyset s
  | .keygen => Sys2Proof.Machine.execKeygen s
  | .keyget => Sys2Proof.Machine.execKeyget s
  | .encb => Sys2Proof.Machine.execEncb s
  | .decb => Sys2Proof.Machine.execDecb s
  | .padadd => Sys2Proof.Machine.execPadadd s
  | .padrem => Sys2Proof.Machine.execPadrem s
  | .ivgen => Sys2Proof.Machine.execIvgen s
  | .cbcenc => Sys2Proof.Machine.execCbcenc s
  | .cbcdec => Sys2Proof.Machine.execCbcdec s
  | .iclr => Sys2Proof.Machine.execIclr s

end Sys2Proof.Machine
end

