-- ==== Sys2Proof/Machine/HostPort.lean ====
section
/-! DEFINITION. The host port: what a host move does (spec/20_memory.md rules R51 to R57), the issue of a command
(spec/30_encoding.md rules R80, R83), and the reset event (spec/70_reset_and_hazards.md rule R210). -/

namespace Sys2Proof.Machine

/-- A write of an illegal opcode: ERR gets 15 and nothing else changes, not even OBUF (R83, R185). -/
def illegalCommand (s : State) : State := s.raise .illegalCommand false

/-- `HostWrite(0x00, op)`: the whole command runs as one indivisible step (R52, R80). -/
def issueCommand (op : Byte) (s : State) : Host.Outcome State Fault Refusal :=
  match decode op with
  | .ok i => exec i s
  | .error _ => .next (illegalCommand s)

/-- `HostWrite(0x02, b)`: appends to IBUF, and is refused when it is full (R54). Log entry 11. -/
def pushByte (c : Params) (b : Byte) (s : State) : Host.Outcome State Fault Refusal :=
  if s.ilen < c.bufcap then .next (s.setIbuf (s.ibuf ++ [b])) else .refused .ibufFull

/-- `HostWrite(addr, b)` (R51, R53). -/
def hostWrite (a : Addr) (b : Byte) (s : State) : Host.Outcome State Fault Refusal :=
  match region a with
  | .cmd => issueCommand b s
  | .idata => pushByte Config.params b s
  | .blk i => .next (s.setBlk (s.blk.set i.val b))
  | .status | .ilen _ | .olen _ | .window _ => .refused (.writeOfReadOnly a)
  | .unmapped => .refused (.unmapped a)

/-- The byte `HostRead(addr)` returns, or why the access is refused (R51, R53, R55 to R57, R28). -/
def readByte (a : Addr) (s : State) : Except Refusal Byte :=
  match region a with
  | .status => .ok (statusByte s)
  | .ilen k => .ok (lengthByte s.ilen k)
  | .olen k => .ok (lengthByte s.olen k)
  | .blk i => .ok s.blk[i]
  | .window i => if h : i < s.obuf.length then .ok s.obuf[i] else .error (.windowBeyondOlen a)
  | .cmd | .idata => .error (.readOfWriteOnly a)
  | .unmapped => .error (.unmapped a)

/-- `HostRead(addr)`: no side effect; the byte goes to the host (R61). -/
def hostRead (a : Addr) (s : State) : Host.Outcome State Fault Refusal :=
  match readByte a s with
  | .ok b => .next (s.logRead b)
  | .error r => .refused r

/-- One input from outside takes effect completely before the next (R63). -/
def takeInput (x : Input) (s : State) : Host.Outcome State Fault Refusal :=
  match x with
  | .move (.write a b) => hostWrite a b s
  | .move (.read a) => hostRead a s
  | .reset => .next (s.resetEvent Config.params)

/-- The host's next input is taken from the list of pending ones; with none pending the core "is idle and holds its state"
(R200). Log entry 4. -/
def nextInput (s : State) : Host.Outcome State Fault Refusal :=
  match s.inputs with
  | [] => .next s
  | x :: rest => takeInput x { s with inputs := rest }

/-- The host's next move is to write the opcode `op` to CMD. -/
def State.withCommand (op : Byte) (s : State) : State := { s with inputs := .move (.write 0 op) :: s.inputs }

end Sys2Proof.Machine
end

