-- ==== Sys2Proof/Machine/Step.lean ====
section
/-! DEFINITION. One step of the machine: one move of the host, atomic (spec/20_memory.md rules R52, R63). There is no
program counter and no fetch (R27); the instruction stream is the sequence of host moves (92_eei_decisions.md D20). -/

namespace Sys2Proof.Machine

/-- One step. -/
def step (s : State) : Host.Outcome State Fault Refusal := nextInput s

/-- The instruction whose table word is `w` is the one the next step runs: the host's next move writes that byte to CMD,
before the moves already pending. A command is one byte (R80), so the bits above the first eight are no part of it. Log
entry 4. -/
def State.withFetchWord (s : State) (_nbits w : Nat) : State := s.withCommand (BitVec.ofNat 8 w)

end Sys2Proof.Machine
end

