-- ==== Sys2Proof/Safety.lean ====
section
/-! DEFINITION. What claims are stated in: the invariant of the state, the legal host moves, and the rows of the opcode
map R81 read as sets of commands. -/

namespace Sys2Proof.Machine

/-- The codes STATUS.ERR can hold; 5 to 14 are never produced (R180). -/
def legalErr (e : BitVec 4) : Prop := e = 0 ∨ e = 1 ∨ e = 2 ∨ e = 3 ∨ e = 4 ∨ e = 15

/-- What holds whenever no command is executing: `RK = KeySchedule(KEY)` (R21), the buffers' bounds (R26) and the legal
result codes (R180). -/
structure State.Inv (s : State) : Prop where
  schedule : s.rk = keySchedule Config.params s.key
  ibuf_bound : s.ibuf.length ≤ Config.params.bufcap
  obuf_bound : s.obuf.length ≤ Config.params.bufcap + 32
  err_legal : legalErr s.err

/-- The commands that write KEY and RK (R81, R106). -/
def replacesKey (i : Instr) : Prop := i = .keyclr ∨ i = .keyset ∨ i = .keygen

/-- The output-producing commands (R184). -/
def producesOutput (i : Instr) : Prop :=
  i = .keyget ∨ i = .padadd ∨ i = .padrem ∨ i = .ivgen ∨ i = .cbcenc ∨ i = .cbcdec

/-- The commands that draw (R34). -/
def drawsBytes (i : Instr) : Prop := i = .keygen ∨ i = .ivgen ∨ i = .cbcenc

/-- The legal moves of R51, spelled out from the access column of R53: the addresses, and the two conditions on ILEN and
OLEN. -/
def legalMove (s : State) (m : HostMove) : Prop :=
  match m with
  | .write a _ =>
    a.toNat = 0 ∨ (a.toNat = 2 ∧ s.ibuf.length < Config.params.bufcap) ∨ (0x10 ≤ a.toNat ∧ a.toNat ≤ 0x1F)
  | .read a =>
    a.toNat = 1 ∨ (4 ≤ a.toNat ∧ a.toNat ≤ 0xB) ∨ (0x10 ≤ a.toNat ∧ a.toNat ≤ 0x1F) ∨
      (0x40000000 ≤ a.toNat ∧ a.toNat < 0x40000000 + s.obuf.length)

/-- A run of `n` steps, stopping at the first stop: "a run of SFC128 is a finite sequence of host moves" (R221). -/
def runSteps : Nat → State → Host.Outcome State Fault Refusal
  | 0, s => .next s
  | n + 1, s =>
    match step s with
    | .next t => runSteps n t
    | .fault r => .fault r
    | .refused r => .refused r

end Sys2Proof.Machine
end

