-- ==== Sys2Proof/Machine/Script.lean ====
section
/-! DEFINITION. The host script syntax and the pseudo-commands: the host moves each line stands for, what a line states, and
the runs of a script (spec/30_encoding.md rules R85, R86). -/

namespace Sys2Proof.Machine

/-- One line of a host script (R85, R86). -/
inductive ScriptLine where
  /-- `WR addr, byte`. -/
  | wr (a : Addr) (b : Byte)
  /-- `RD addr`, with the byte that a following `-> byte` states. -/
  | rd (a : Addr) (value : Option Byte)
  /-- `CMD mnemonic`. -/
  | cmd (i : Instr)
  /-- `PUSH b0 .. bn-1`. -/
  | push (bs : List Byte)
  /-- `LOADI b0 .. bn-1`. -/
  | loadi (bs : List Byte)
  /-- `SETBLK b0 .. b15`. -/
  | setblk (b : Block)
  /-- `GETBLK`. -/
  | getblk
  /-- `GETLEN`. -/
  | getlen
  /-- `GETOUT`. -/
  | getout
  /-- `GETERR`. -/
  | geterr
  /-- `DRAWS d0 .. d15`: states the oracle's next sixteen answers; "not a host move" (R86). -/
  | draws (d : Block)
  deriving DecidableEq, Repr

/-- The n appends of `PUSH` (R86). -/
def pushMoves (bs : List Byte) : List HostMove := bs.map (HostMove.write 2)

/-- The sixteen reads of `GETBLK` (R86). -/
def getblkMoves : List HostMove := (List.range 16).map fun i => .read (BitVec.ofNat 32 (0x10 + i))

/-- The four reads of `GETLEN` (R86). -/
def getlenMoves : List HostMove := (List.range 4).map fun k => .read (BitVec.ofNat 32 (0x08 + k))

/-- The window reads of `GETOUT`, indices 0 .. n-1 (R86). -/
def windowMoves (n : Nat) : List HostMove := (List.range n).map fun i => .read (BitVec.ofNat 32 (0x40000000 + i))

/-- The sixteen writes of `SETBLK` (R86). -/
def setblkMoves (b : Block) : List HostMove :=
  (List.range 16).map fun i => .write (BitVec.ofNat 32 (0x10 + i)) (b.toList.getD i 0)

/-- The host moves a script line stands for in the state it starts in: GETOUT reads as many bytes as OLEN says there, and
the GETLEN before them does not change OLEN (R85, R86). -/
def expand (l : ScriptLine) (s : State) : List HostMove :=
  match l with
  | .wr a b => [.write a b]
  | .rd a _ => [.read a]
  | .cmd i => [.write 0 (encode i)]
  | .push bs => pushMoves bs
  | .loadi bs => .write 0 (encode .iclr) :: pushMoves bs
  | .setblk b => setblkMoves b
  | .getblk => getblkMoves
  | .getlen => getlenMoves
  | .getout => getlenMoves ++ windowMoves s.olen
  | .geterr => [.read 1]
  | .draws _ => []

/-- What a script line states of the state it starts in: DRAWS states the answers of the oracle to the next sixteen `Draw()`
calls, in call order (R86); RD with `-> byte` the value the rules give (R85). -/
def stated (l : ScriptLine) (s : State) : Prop :=
  match l with
  | .draws d => s.nextDraws Config.params = d
  | .rd a (some b) => readByte a s = .ok b
  | .rd _ none | .wr _ _ | .cmd _ | .push _ | .loadi _ | .setblk _ | .getblk | .getlen | .getout | .geterr => True

/-- The host is about to make these moves, before the inputs already pending. -/
def State.withMoves (ms : List HostMove) (s : State) : State := { s with inputs := ms.map Input.move ++ s.inputs }

/-- The script runs from `s` to `t`: each line in turn states something true, and all its moves are accepted (R85, R86,
R221). A script whose DRAWS line the oracle does not answer has no run. Log entry 16. -/
def scriptRuns : List ScriptLine → State → State → Prop
  | [], s, t => t = s
  | l :: ls, s, t =>
    stated l s ∧ ∃ u, runSteps (expand l s).length (s.withMoves (expand l s)) = .next u ∧ scriptRuns ls u t

end Sys2Proof.Machine
end

