-- ==== Sys2Proof/Certificates/Slice0/Obligations.lean ====
section
/-! DEFINITION. The statements about the model, each from the rule of spec/ that its docstring names. A statement that speaks
of the oracle's answers or of the tables holds for every value of them: they are constants with no body. -/

open Sys2Proof Sys2Proof.Machine

/-! ### Encoding -/

/-- R81: the opcode bytes of the map, written out, decode to the commands they stand for. -/
def Obligations.OpcodeMapDecodesItsTwelveBytes : Prop :=
  decode 0x01 = .ok .keyclr ∧ decode 0x02 = .ok .keyset ∧ decode 0x03 = .ok .keygen ∧ decode 0x04 = .ok .keyget ∧
  decode 0x10 = .ok .encb ∧ decode 0x11 = .ok .decb ∧ decode 0x20 = .ok .padadd ∧ decode 0x21 = .ok .padrem ∧
  decode 0x30 = .ok .ivgen ∧ decode 0x40 = .ok .cbcenc ∧ decode 0x41 = .ok .cbcdec ∧ decode 0x50 = .ok .iclr

/-- R80, R84 (R84 is an inference the spec marks as its own): a byte decodes to a command exactly when it is that command's encoding, so decode of encode is the command and
each command has one byte. -/
def Obligations.DecodeIsInverseOfEncode : Prop :=
  ∀ (b : Byte) (i : Instr), decode b = .ok i ↔ encode i = b

/-- R83, R185: in every state, a write to CMD of a byte in the listed ranges sets ERR to 15 and changes nothing else, OBUF
and the oracle's position included; a byte outside the ranges is a command. -/
def Obligations.IllegalOpcodeSetsErrFifteenOnly : Prop :=
  ∀ (s : State) (b : Byte) (rest : List Input), s.inputs = .move (.write 0 b) :: rest →
    let n := b.toNat
    let listed := n = 0x00 ∨ (0x05 ≤ n ∧ n ≤ 0x0F) ∨ (0x12 ≤ n ∧ n ≤ 0x1F) ∨ (0x22 ≤ n ∧ n ≤ 0x2F) ∨
      (0x31 ≤ n ∧ n ≤ 0x3F) ∨ (0x42 ≤ n ∧ n ≤ 0x4F) ∨ (0x51 ≤ n ∧ n ≤ 0xFF)
    (listed → step s = .next { s with inputs := rest, err := 15 }) ∧ (¬ listed → ∃ i, decode b = .ok i)

/-- R80, R52: when the host's next move writes the opcode of command i to CMD, the step is exec of i on the state with that
move taken. -/
def Obligations.StepRunsTheCommandWrittenToCmd : Prop :=
  ∀ (s : State) (b : Byte) (i : Instr) (rest : List Input), s.inputs = .move (.write 0 b) :: rest → decode b = .ok i →
    step s = exec i { s with inputs := rest }

/-! ### Key register commands -/

/-- R100: KEYCLR sets sixteen zero bytes and their schedule, ERR 0; BLK, IBUF and OBUF stay; STATUS then reads 0x00; it is
idempotent; every command still runs under the zero key. -/
def Obligations.KeyclrSetsZeroKey : Prop :=
  ∀ s : State, ∃ t, exec .keyclr s = .next t ∧
    t = { s with key := Vector.replicate 16 0, rk := keySchedule Config.params (Vector.replicate 16 0), err := 0 } ∧
    readByte 1 t = .ok 0x00 ∧ exec .keyclr t = .next t ∧ ∀ i, ∃ u, exec i t = .next u

/-- R101: with 16 or more bytes in IBUF, KEYSET takes the first 16 as the key with its schedule, ERR 0, and STATUS bit 7
follows the new key; with fewer it sets ERR 1 and nothing else changes, OBUF included. -/
def Obligations.KeysetLoadsFirstSixteenBytes : Prop :=
  ∀ s : State,
    (s.ibuf.length < 16 → exec .keyset s = .next { s with err := 1 }) ∧
    (16 ≤ s.ibuf.length → ∃ t, exec .keyset s = .next t ∧ t.key.toList = s.ibuf.take 16 ∧
      t = { s with key := t.key, rk := keySchedule Config.params t.key, err := 0 } ∧
      readByte 1 t = .ok (if ∃ b ∈ s.ibuf.take 16, b ≠ 0 then 0x80 else 0x00))

/-- R103: KEYGEN takes the oracle's next sixteen answers, in ascending byte index, as the key, with its schedule; ERR 0, and
STATUS bit 7 follows the drawn key. The oracle is free: nothing is assumed of its answers. -/
def Obligations.KeygenLoadsSixteenDraws : Prop :=
  ∀ s : State, ∃ t, exec .keygen s = .next t ∧ (∀ i : Fin 16, t.key[i] = Config.params.draw (s.draws + i.val)) ∧
    t = { s with key := t.key, rk := keySchedule Config.params t.key, draws := s.draws + 16, err := 0 } ∧
    readByte 1 t = .ok (if ∃ i : Fin 16, t.key[i] ≠ 0 then 0x80 else 0x00)

/-- R104: KEYGET copies the key's sixteen bytes to OBUF, so OLEN is 16; ERR 0; nothing else changes. -/
def Obligations.KeygetCopiesKeyToOutput : Prop :=
  ∀ s : State, ∃ t, exec .keyget s = .next t ∧ t = { s with obuf := t.obuf, err := 0 } ∧ t.obuf.length = 16 ∧
    ∀ i : Fin 16, t.obuf[i.val]? = some s.key[i]

/-- R106: each of the three key-replacing commands, when it replaces the key, leaves the whole schedule of the key it leaves,
in one step, whatever RK was before. -/
def Obligations.KeyReplacementRegeneratesWholeSchedule : Prop :=
  ∀ (i : Instr) (s : State), i = .keyclr ∨ (i = .keyset ∧ 16 ≤ s.ibuf.length) ∨ i = .keygen →
    ∃ t, exec i s = .next t ∧ t.rk = keySchedule Config.params t.key

/-! ### The round unit, the key schedule and the block transforms -/

/-- R120: byte x[31:24] indexes SS[0], x[23:16] SS[1], x[15:8] SS[2], x[7:0] SS[3], and the four words are XORed; for all
tables. -/
def Obligations.SubstitutionPairsHighByteWithTableZero : Prop :=
  ∀ (c : Params) (x : Word),
    G c x = c.SS 0 (BitVec.ofNat 8 (x.toNat / 2 ^ 24)) ^^^ c.SS 1 (BitVec.ofNat 8 (x.toNat / 2 ^ 16)) ^^^
      c.SS 2 (BitVec.ofNat 8 (x.toNat / 2 ^ 8)) ^^^ c.SS 3 (BitVec.ofNat 8 x.toNat)

/-- R122: F in closed form, for all tables, and its value `2a + 3b mod 2^32` when G is the identity. -/
def Obligations.RoundFunctionMixesThreeSubstitutions : Prop :=
  ∀ (c : Params) (ki0 ki1 r0 r1 : Word),
    (let a := r0 ^^^ ki0
     let b := G c (r1 ^^^ ki1 ^^^ a)
     let d := G c (a + b)
     F c ki0 ki1 r0 r1 = d + G c (b + d)) ∧
    ((∀ x, G c x = x) → F c ki0 ki1 r0 r1 = 2 * (r0 ^^^ ki0) + 3 * (r1 ^^^ ki1 ^^^ (r0 ^^^ ki0)))

/-- R130, R134: the words of round i come from the pair (K0,K1) rotated left by 8 once for each earlier even round and the
pair (K2,K3), K2 high, rotated right by 8 once for each earlier odd round; for all tables, constants and keys. -/
def Obligations.KeyScheduleUsesPairsRotatedBeforeEachRound : Prop :=
  ∀ (c : Params) (k : Block) (i : Fin 16),
    let A : DWord := (wordAt k 0 ++ wordAt k 1).rotateLeft (8 * ((i.val + 1) / 2))
    let B : DWord := (wordAt k 2 ++ wordAt k 3).rotateRight (8 * (i.val / 2))
    (keySchedule c k)[2 * i.val]'(by omega) = G c (A.extractLsb' 32 32 + B.extractLsb' 32 32 - c.KC i) ∧
    (keySchedule c k)[2 * i.val + 1]'(by omega) = G c (A.extractLsb' 0 32 - B.extractLsb' 0 32 + c.KC i)

/-- R136 (a), (b) (an inference the spec marks as its own): the schedules of the all-zero and the all-0xFF key. -/
def Obligations.SchedulesOfZeroAndOnesKeys : Prop :=
  ∀ (c : Params) (i : Fin 16),
    (keySchedule c (Vector.replicate 16 0))[2 * i.val]'(by omega) = G c (0 - c.KC i) ∧
    (keySchedule c (Vector.replicate 16 0))[2 * i.val + 1]'(by omega) = G c (c.KC i) ∧
    (keySchedule c (Vector.replicate 16 0xFF))[2 * i.val]'(by omega) = G c (0xFFFFFFFE - c.KC i) ∧
    (keySchedule c (Vector.replicate 16 0xFF))[2 * i.val + 1]'(by omega) = G c (c.KC i)

/-- R140, R141, R142: the words of the result are those of sixteen Feistel updates from the words of the block, each with the
pair `rk[2k]`, `rk[2k+1]` in that order, k ascending for encryption and descending for decryption, right half written first;
for all round keys, blocks and tables. -/
def Obligations.BlockTransformsRunSixteenRounds : Prop :=
  ∀ (c : Params) (rk : RoundKeys) (b : Block) (L0 L1 R0 R1 : Nat → Word) (order : Fin 16 → Fin 16),
    (L0 0 = wordAt b 0 ∧ L1 0 = wordAt b 1 ∧ R0 0 = wordAt b 2 ∧ R1 0 = wordAt b 3) →
    (∀ i : Fin 16,
      let f := F c (rk[2 * (order i).val]'(by omega)) (rk[2 * (order i).val + 1]'(by omega)) (R0 i.val) (R1 i.val)
      L0 (i.val + 1) = R0 i.val ∧ L1 (i.val + 1) = R1 i.val ∧
      R0 (i.val + 1) = L0 i.val ^^^ f ∧ R1 (i.val + 1) = L1 i.val ^^^ f) →
    ∀ d : Block, ((∀ i, order i = i) ∧ d = encryptBlock c rk b) ∨
        ((∀ i, (order i).val = 15 - i.val) ∧ d = decryptBlock c rk b) →
      wordAt d 0 = R0 16 ∧ wordAt d 1 = R1 16 ∧ wordAt d 2 = L0 16 ∧ wordAt d 3 = L1 16

/-- R143 (an inference the spec marks as its own): the two block functions invert each other, for all round keys, blocks and tables. -/
def Obligations.BlockTransformsInvertEachOther : Prop :=
  ∀ (c : Params) (rk : RoundKeys) (b : Block),
    decryptBlock c rk (encryptBlock c rk b) = b ∧ encryptBlock c rk (decryptBlock c rk b) = b

/-- R146 (an inference the spec marks as its own): the XOR of the two words of a half passes through each round and through both transforms, for all keys and
tables. -/
def Obligations.HalfXorSurvivesTransforms : Prop :=
  ∀ (c : Params) (rk : RoundKeys),
    (∀ (w : BlockWords) (i : Fin 16), let w' := feistelRound c rk w i
      w'.R0 ^^^ w'.R1 = w.L0 ^^^ w.L1 ∧ w'.L0 ^^^ w'.L1 = w.R0 ^^^ w.R1) ∧
    ∀ (b d : Block), d = encryptBlock c rk b ∨ d = decryptBlock c rk b →
      wordAt d 0 ^^^ wordAt d 1 = wordAt b 2 ^^^ wordAt b 3 ∧ wordAt d 2 ^^^ wordAt d 3 = wordAt b 0 ^^^ wordAt b 1

/-- R144: ENCB replaces BLK by its encryption under RK; ERR 0; nothing else changes. -/
def Obligations.EncbEncryptsBlockRegister : Prop :=
  ∀ s : State, exec .encb s = .next { s with blk := encryptBlock Config.params s.rk s.blk, err := 0 }

/-- R145: DECB replaces BLK by its decryption under RK; ERR 0; nothing else changes; and ENCB then DECB, or the reverse,
restores BLK. -/
def Obligations.DecbDecryptsBlockRegister : Prop :=
  ∀ s : State, ∃ t u, exec .decb s = .next t ∧ t = { s with blk := decryptBlock Config.params s.rk s.blk, err := 0 } ∧
    exec .encb t = .next { s with err := 0 } ∧ exec .encb s = .next u ∧ exec .decb u = .next { s with err := 0 }

/-! ### Padding -/

/-- R150: between 1 and 16 bytes are appended, each of the value of their number, up to the next multiple of 16. -/
def Obligations.AddPaddingAppendsItsLength : Prop :=
  ∀ s : List Byte, ∃ p, p = 16 - s.length % 16 ∧ 1 ≤ p ∧ p ≤ 16 ∧
    addPadding s = s ++ List.replicate p (BitVec.ofNat 8 p) ∧ (addPadding s).length = 16 * (s.length / 16 + 1)

/-- R151: the validator fails exactly on the five conditions, always with a PaddingError, and otherwise returns the buffer
without its last p bytes. -/
def Obligations.RemovePaddingFailsOnExactlyFiveConditions : Prop :=
  ∀ s : List Byte,
    let bad := s = [] ∨ ∃ last, s.getLast? = some last ∧ (last.toNat = 0 ∨ 16 < last.toNat ∨ s.length < last.toNat ∨
      ∃ k, s.length - last.toNat ≤ k ∧ k < s.length ∧ s[k]? ≠ some last)
    (bad → removePadding s = .error .padding) ∧
    (¬ bad → ∃ last, s.getLast? = some last ∧ removePadding s = .ok (s.take (s.length - last.toNat)))

/-- R154 (an inference the spec marks as its own): removing what was added gives the buffer back; and the counterexample the rule gives for the converse. -/
def Obligations.RemovePaddingUndoesAddPadding : Prop :=
  (∀ s : List Byte, removePadding (addPadding s) = .ok s) ∧
    removePadding [0xAA, 0x01] = .ok [0xAA] ∧ (addPadding [0xAA]).length = 16

/-- R152: PADADD puts the padded IBUF in OBUF, with the length law and the bound; ERR 0; nothing else changes. -/
def Obligations.PadaddOutputsPaddedInput : Prop :=
  ∀ s : State, ∃ t, exec .padadd s = .next t ∧ t = { s with obuf := addPadding s.ibuf, err := 0 } ∧
    t.obuf.length = 16 * (s.ibuf.length / 16 + 1) ∧ t.obuf.length ≤ s.ibuf.length + 16 ∧
    (s.ibuf.length ≤ Config.params.bufcap → t.obuf.length ≤ Config.params.bufcap + 32)

/-- R153: PADREM puts the stripped IBUF in OBUF with ERR 0, or empties OBUF with ERR 4; nothing else changes. -/
def Obligations.PadremStripsOrReportsPaddingError : Prop :=
  ∀ s : State,
    (∀ r, removePadding s.ibuf = .ok r → exec .padrem s = .next { s with obuf := r, err := 0 } ∧
      ∃ p, 1 ≤ p ∧ p ≤ 16 ∧ r.length + p = s.ibuf.length) ∧
    (∀ e, removePadding s.ibuf = .error e → exec .padrem s = .next { s with obuf := [], err := 4 })

/-! ### IV generator and CBC -/

/-- R160: IVGEN puts the oracle's next sixteen answers in OBUF; ERR 0; nothing else of the block changes. -/
def Obligations.IvgenOutputsSixteenDraws : Prop :=
  ∀ s : State, ∃ t, exec .ivgen s = .next t ∧ t = { s with obuf := t.obuf, draws := s.draws + 16, err := 0 } ∧
    t.obuf.length = 16 ∧ ∀ i : Fin 16, t.obuf[i.val]? = some (Config.params.draw (s.draws + i.val))

/-- R161: the envelope is the IV, then for each padded block its XOR with the envelope block before it, encrypted; for all
tables, round keys and IVs. -/
def Obligations.EnvelopeBlocksChainFromIv : Prop :=
  ∀ (c : Params) (rk : RoundKeys) (s : List Byte) (iv : Block),
    let P := addPadding s
    let E := cbcEncrypt c rk s iv
    E.length = 16 + P.length ∧ E.take 16 = iv.toList ∧
      ∀ j, 16 * j < P.length → blockAt E (j + 1) = encryptBlock c rk (xor16 (blockAt P j) (blockAt E j))

/-- R162: CBCENC draws sixteen bytes as the IV and puts the envelope of IBUF in OBUF; ERR 0; nothing else of the block
changes, for every IBUF and key. -/
def Obligations.CbcencOutputsEnvelope : Prop :=
  ∀ s : State, ∃ iv : Block, (∀ i : Fin 16, iv[i] = Config.params.draw (s.draws + i.val)) ∧
    exec .cbcenc s =
      .next { s with obuf := cbcEncrypt Config.params s.rk s.ibuf iv, draws := s.draws + 16, err := 0 }

/-- R163: the envelope's length, in this spec's formula and in the source's two cases. -/
def Obligations.EnvelopeLengthLaw : Prop :=
  ∀ (c : Params) (rk : RoundKeys) (s : List Byte) (iv : Block),
    let n := s.length
    let len := (cbcEncrypt c rk s iv).length
    len = 16 + 16 * (n / 16 + 1) ∧ (n % 16 ≠ 0 → len = 16 + 16 * ((n + 1 + 15) / 16)) ∧
      (n % 16 = 0 → len = 16 + n + 16) ∧ ∃ k, 1 ≤ k ∧ len = 16 + 16 * k

/-- R164: too short first, misaligned second; otherwise each block is decrypted and XORed with the envelope block before it,
and the padding of the assembled plaintext is removed. -/
def Obligations.CbcDecryptChecksLengthThenUnchains : Prop :=
  ∀ (c : Params) (rk : RoundKeys) (e : List Byte),
    (e.length < 32 → cbcDecrypt c rk e = .error .envelopeTooShort) ∧
    (32 ≤ e.length → (e.length - 16) % 16 ≠ 0 → cbcDecrypt c rk e = .error .envelopeMisaligned) ∧
    (32 ≤ e.length → (e.length - 16) % 16 = 0 → ∃ acc : List Byte, acc.length = e.length - 16 ∧
      (∀ j, 16 * j < acc.length → blockAt acc j = xor16 (decryptBlock c rk (blockAt e (j + 1))) (blockAt e j)) ∧
      cbcDecrypt c rk e = removePadding acc)

/-- R165: CBCDEC puts the plaintext in OBUF with ERR 0, or empties OBUF with the code of the first error; nothing else
changes and no draw is made; a successful result is 17 to 32 bytes shorter than the envelope. -/
def Obligations.CbcdecOutputsPlaintextOrOneOfThreeErrors : Prop :=
  ∀ s : State,
    (s.ibuf.length < 32 → exec .cbcdec s = .next { s with obuf := [], err := 2 }) ∧
    (32 ≤ s.ibuf.length → (s.ibuf.length - 16) % 16 ≠ 0 → exec .cbcdec s = .next { s with obuf := [], err := 3 }) ∧
    (32 ≤ s.ibuf.length → (s.ibuf.length - 16) % 16 = 0 →
      (∀ r, cbcDecrypt Config.params s.rk s.ibuf = .ok r →
        exec .cbcdec s = .next { s with obuf := r, err := 0 } ∧ s.ibuf.length - 32 ≤ r.length ∧
          r.length ≤ s.ibuf.length - 17) ∧
      (∀ e, cbcDecrypt Config.params s.rk s.ibuf = .error e →
        removePadding (assembledPlaintext Config.params s.rk s.ibuf) = .error .padding ∧
          exec .cbcdec s = .next { s with obuf := [], err := 4 }))

/-- R166 (an inference the spec marks as its own): decrypting what was encrypted gives the plaintext back, for every key, buffer and IV; and on the machine: CBCDEC of
CBCENC's output returns the original IBUF with ERR 0, an output that fits IBUF when ILEN <= BUFCAP - 32. -/
def Obligations.CbcRoundTrip : Prop :=
  (∀ (c : Params) (k : Block) (s : List Byte) (iv : Block),
    cbcDecrypt c (keySchedule c k) (cbcEncrypt c (keySchedule c k) s iv) = .ok s) ∧
  ∀ s : State, ∃ t, exec .cbcenc s = .next t ∧
    exec .cbcdec { t with ibuf := t.obuf } = .next { t with ibuf := t.obuf, obuf := s.ibuf, err := 0 } ∧
    (s.ibuf.length + 32 ≤ Config.params.bufcap → t.obuf.length ≤ Config.params.bufcap)

/-- R166 (an inference the spec marks as its own), R86: the round trip driven by the host: CMD CBCENC and GETOUT read the
envelope out; LOADI of the bytes read, CMD CBCDEC and GETOUT then return the original buffer with ERR 0 and leave KEY, RK and
BLK alone. -/
def Obligations.HostScriptRoundTrip : Prop :=
  ∀ s : State, s.ibuf.length + 32 ≤ Config.params.bufcap →
    ∃ t u env, scriptRuns [.cmd .cbcenc, .getout] s t ∧ t.reads.drop (s.reads.length + 4) = env ∧
      scriptRuns [.loadi env, .cmd .cbcdec, .getout] t u ∧ u.reads.drop (t.reads.length + 4) = s.ibuf ∧
      u.obuf = s.ibuf ∧ u.err = 0 ∧ u.ibuf = env ∧ u.key = s.key ∧ u.rk = s.rk ∧ u.blk = s.blk ∧ u.inputs = s.inputs

/-- R169 (an inference the spec marks as its own): XORing a mask into byte i of the IV of a well-formed envelope XORs it into byte i of the assembled plaintext and
changes nothing else of it; for all tables and round keys. -/
def Obligations.IvTamperingFlipsOneByteOfFirstBlock : Prop :=
  ∀ (c : Params) (rk : RoundKeys) (e : List Byte) (i : Nat) (m old : Byte), 32 ≤ e.length → i < 16 → e[i]? = some old →
    ∃ b, (assembledPlaintext c rk e)[i]? = some b ∧
      assembledPlaintext c rk (e.set i (old ^^^ m)) = (assembledPlaintext c rk e).set i (b ^^^ m)

/-- R168: ICLR empties IBUF, so ILEN is 0; ERR 0; nothing else changes; legal when already empty. -/
def Obligations.IclrEmptiesInputBuffer : Prop :=
  ∀ s : State, exec .iclr s = .next { s with ibuf := [], err := 0 } ∧
    exec .iclr { s with ibuf := [], err := 0 } = .next { s with ibuf := [], err := 0 }

/-! ### All commands -/

/-- R212: from every state every command completes: exec answers a next state. -/
def Obligations.EveryCommandCompletesInEveryState : Prop :=
  ∀ (i : Instr) (s : State), ∃ t, exec i s = .next t

/-- R35 (an inference the spec marks as its own), R81: a command leaves alone every piece of state its row of the opcode map does not say it writes; the host's
pending inputs and what it has read are never touched, and only KEYGEN, IVGEN and CBCENC move the oracle, by sixteen. -/
def Obligations.CommandsWriteOnlyTheirColumn : Prop :=
  ∀ (i : Instr) (s t : State), exec i s = .next t →
    (¬ replacesKey i → t.key = s.key ∧ t.rk = s.rk) ∧
    (i ≠ .encb → i ≠ .decb → t.blk = s.blk) ∧
    (i ≠ .iclr → t.ibuf = s.ibuf) ∧
    (¬ producesOutput i → t.obuf = s.obuf) ∧
    (drawsBytes i → t.draws = s.draws + 16) ∧ (¬ drawsBytes i → t.draws = s.draws) ∧
    t.inputs = s.inputs ∧ t.reads = s.reads

/-- R35 (an inference the spec marks as its own) through the host's eyes: what a HostRead returns at an address is the same before and after a command, unless the
command writes what stands there: STATUS; BLK for ENCB and DECB; ILEN for ICLR; OLEN and the window for the output-producing
commands. -/
def Obligations.CommandsChangeOnlyTheirReadableBytes : Prop :=
  ∀ (i : Instr) (s t : State) (a : Addr), exec i s = .next t → a.toNat ≠ 1 →
    (i = .encb ∨ i = .decb → ¬ (0x10 ≤ a.toNat ∧ a.toNat ≤ 0x1F)) →
    (i = .iclr → ¬ (4 ≤ a.toNat ∧ a.toNat ≤ 7)) →
    (producesOutput i → ¬ (8 ≤ a.toNat ∧ a.toNat ≤ 0xB) ∧ a.toNat < 0x40000000) →
    readByte a t = readByte a s

/-- R184: a command that ends with ERR not 0 leaves the state from before it, but for ERR, the emptied OBUF of an
output-producing command; no draw is consumed. -/
def Obligations.ErrorsArePrecise : Prop :=
  ∀ (i : Instr) (s t : State), exec i s = .next t → t.err ≠ 0 →
    (producesOutput i → t = { s with err := t.err, obuf := [] }) ∧ (¬ producesOutput i → t = { s with err := t.err })

/-- R180, R186: the code each command leaves, with the conditions of the table and their priority; 15 is left by no
command, only by an illegal opcode. -/
def Obligations.ResultCodesFollowTheTable : Prop :=
  (∀ (i : Instr) (s t : State), exec i s = .next t →
    legalErr t.err ∧ t.err ≠ 15 ∧
    (t.err = 1 ↔ i = .keyset ∧ s.ibuf.length < 16) ∧
    (t.err = 2 ↔ i = .cbcdec ∧ s.ibuf.length < 32) ∧
    (t.err = 3 ↔ i = .cbcdec ∧ 32 ≤ s.ibuf.length ∧ (s.ibuf.length - 16) % 16 ≠ 0) ∧
    (t.err = 4 ↔ (i = .padrem ∧ removePadding s.ibuf = .error .padding) ∨
      (i = .cbcdec ∧ 32 ≤ s.ibuf.length ∧ (s.ibuf.length - 16) % 16 = 0 ∧
        removePadding (assembledPlaintext Config.params s.rk s.ibuf) = .error .padding))) ∧
  ∀ (b : Byte) (s : State), (∀ i, decode b ≠ .ok i) → issueCommand b s = .next { s with err := 15 }

/-- R183, R186: the codes 2 and 3 depend on ILEN alone: two states whose IBUFs have the same length, whatever else differs,
get code 2 together and code 3 together. -/
def Obligations.LengthErrorsDependOnLengthAlone : Prop :=
  ∀ s s' t t' : State, s.ibuf.length = s'.ibuf.length → exec .cbcdec s = .next t → exec .cbcdec s' = .next t' →
    (t.err = 2 ↔ t'.err = 2) ∧ (t.err = 3 ↔ t'.err = 3)

/-- R58 (an inference the spec marks as its own): no command overflows OBUF, and how much each can put there. -/
def Obligations.OutputsFitTheOutputBuffer : Prop :=
  ∀ (i : Instr) (s t : State), producesOutput i → exec i s = .next t →
    (i = .cbcenc → t.obuf.length = 16 + 16 * (s.ibuf.length / 16 + 1) ∧ t.obuf.length ≤ s.ibuf.length + 32) ∧
    (i = .padadd → t.obuf.length ≤ s.ibuf.length + 16) ∧
    (i = .keyget ∨ i = .ivgen → t.obuf.length = 16) ∧
    (i = .padrem ∨ i = .cbcdec → t.err = 0 → t.obuf.length < s.ibuf.length) ∧
    (s.ibuf.length ≤ Config.params.bufcap → t.obuf.length ≤ Config.params.bufcap + 32)

/-! ### The host port -/

/-- R54: a write to IDATA appends the byte and changes nothing else; at ILEN = BUFCAP it is refused. The name of the refusal,
`ibufFull`, is the model's choice (log entry 13). -/
def Obligations.IdataWriteAppends : Prop :=
  ∀ (s : State) (b : Byte) (rest : List Input), s.inputs = .move (.write 2 b) :: rest →
    (s.ibuf.length < Config.params.bufcap → step s = .next { s with inputs := rest, ibuf := s.ibuf ++ [b] }) ∧
    (s.ibuf.length = Config.params.bufcap → step s = .refused .ibufFull)

/-- R55: a read of 0x04 + k returns byte k of ILEN and one of 0x08 + k byte k of OLEN, most significant first, with no side
effect on the block; in states within the buffers' bounds the four bytes hold the whole length. -/
def Obligations.LengthRegistersReadBigEndian : Prop :=
  ∀ (s : State) (k : Fin 4) (rest : List Input),
    (s.inputs = .move (.read (BitVec.ofNat 32 (0x04 + k.val))) :: rest → step s =
      .next { s with inputs := rest, reads := s.reads ++ [BitVec.ofNat 8 (s.ibuf.length / 2 ^ (24 - 8 * k.val))] }) ∧
    (s.inputs = .move (.read (BitVec.ofNat 32 (0x08 + k.val))) :: rest → step s =
      .next { s with inputs := rest, reads := s.reads ++ [BitVec.ofNat 8 (s.obuf.length / 2 ^ (24 - 8 * k.val))] }) ∧
    (s.Inv → s.ibuf.length < 2 ^ 30 + 1 ∧ s.obuf.length < 2 ^ 30 + 1)

/-- R56: a write to 0x10 + i changes BLK[i] and nothing else; a read there returns BLK[i] with no side effect on the block;
BLK[0] is the most significant byte of word L0. -/
def Obligations.BlkReadsAndWritesBytes : Prop :=
  ∀ (s : State) (i : Fin 16) (b : Byte) (rest : List Input),
    (s.inputs = .move (.read (BitVec.ofNat 32 (0x10 + i.val))) :: rest →
      step s = .next { s with inputs := rest, reads := s.reads ++ [s.blk[i]] }) ∧
    (s.inputs = .move (.write (BitVec.ofNat 32 (0x10 + i.val)) b) :: rest →
      ∃ t, step s = .next t ∧ t = { s with inputs := rest, blk := t.blk } ∧ t.blk[i] = b ∧
        ∀ j : Fin 16, j ≠ i → t.blk[j] = s.blk[j]) ∧
    (blockWords s.blk).L0.extractLsb' 24 8 = s.blk[0]

/-- R57: a read of index i of the OBUF window returns OBUF[i] with no side effect on the block while i < OLEN, and is refused
from OLEN on; within the buffers' bounds the window does not reach 0x8000_0000. -/
def Obligations.OutputWindowReadsObuf : Prop :=
  ∀ (s : State) (i : Nat) (rest : List Input), i < 0xC0000000 →
    s.inputs = .move (.read (BitVec.ofNat 32 (0x40000000 + i))) :: rest →
    (∀ b, s.obuf[i]? = some b → step s = .next { s with inputs := rest, reads := s.reads ++ [b] }) ∧
    (s.obuf.length ≤ i → ∃ r, step s = .refused r) ∧
    (s.Inv → 0x40000000 + s.obuf.length ≤ 0x80000000)

/-- R51, R53: a host move takes a step exactly when the address map makes it legal, and is refused otherwise; no move
faults. That a write to IDATA is refused also in states with ILEN above BUFCAP, which no run reaches, is the model's choice
(log entry 11). -/
def Obligations.MovesAreRefusedExactlyOutsideTheMap : Prop :=
  ∀ (s : State) (m : HostMove) (rest : List Input), s.inputs = .move m :: rest →
    (legalMove s m → ∃ t, step s = .next t) ∧ (¬ legalMove s m → ∃ r, step s = .refused r)

/-- R61, R55, R56, R57: a HostRead changes nothing of the block; the byte it returns is the last of what the host has
read. -/
def Obligations.HostReadsHaveNoSideEffect : Prop :=
  ∀ (s : State) (a : Addr) (rest : List Input), s.inputs = .move (.read a) :: rest → legalMove s (.read a) →
    ∃ b, readByte a s = .ok b ∧ step s = .next { s with inputs := rest, reads := s.reads ++ [b] }

/-- R28: STATUS at 0x01: bits 3:0 are ERR, bits 6:4 read 0, bit 7 says whether some byte of KEY is not 0. -/
def Obligations.StatusReadsErrAndKeyValidity : Prop :=
  ∀ s : State, ∃ b, readByte 1 s = .ok b ∧ b.extractLsb' 0 4 = s.err ∧ b.extractLsb' 4 3 = 0 ∧
    (b.getLsbD 7 = true ↔ ∃ i : Fin 16, s.key[i] ≠ 0)

/-- R21, R195: RK cannot be read: what a host read returns does not depend on it. -/
def Obligations.RoundKeysCannotBeRead : Prop :=
  ∀ (s : State) (rk : RoundKeys) (a : Addr), readByte a { s with rk := rk } = readByte a s

/-- R200: with no input pending the core is idle and holds its state. The list of pending inputs is the model's (log entry
4). -/
def Obligations.IdleCoreHoldsItsState : Prop :=
  ∀ s : State, s.inputs = [] → step s = .next s

/-- R210, R211 (R211 is an inference the spec marks as its own): a reset event gives every piece of state its reset value and makes no draw. That the host's later inputs, what
it has read and the oracle's position survive is the model's choice (log entry 6). -/
def Obligations.ResetEventRestoresResetValues : Prop :=
  ∀ (s : State) (rest : List Input), s.inputs = .reset :: rest →
    step s = .next { State.reset with inputs := rest, reads := s.reads, draws := s.draws }

/-- R36: the reset values, and STATUS then reads 0x00. -/
def Obligations.ResetValuesOfAllState : Prop :=
  State.reset.key = Vector.replicate 16 0 ∧ State.reset.rk = keySchedule Config.params (Vector.replicate 16 0) ∧
  State.reset.blk = Vector.replicate 16 0 ∧ State.reset.ibuf = [] ∧ State.reset.obuf = [] ∧ State.reset.err = 0 ∧
  readByte 1 State.reset = .ok 0x00

/-! ### The whole machine -/

/-- R21, R26, R180: the invariant holds after reset. -/
def Obligations.ResetStateMeetsInvariant : Prop := State.reset.Inv

/-- R21, R26, R180: from every state that meets the invariant, whatever the outside world does next, a step that answers a
next state leaves it met: the schedule is the key's, the buffers keep their bounds, the result code is a legal one. -/
def Obligations.StepKeepsInvariant : Prop :=
  ∀ s t : State, s.Inv → step s = .next t → t.Inv

/-- R20, R21: a step changes KEY or RK only if it is KEYCLR, KEYSET or KEYGEN written to CMD, or the reset event (an input of
the model, log entry 6). -/
def Obligations.OnlyKeyCommandsChangeTheKey : Prop :=
  ∀ s t : State, step s = .next t → t.key ≠ s.key ∨ t.rk ≠ s.rk →
    ∃ rest, s.inputs = .reset :: rest ∨
      ∃ i, replacesKey i ∧ s.inputs = .move (.write 0 (encode i)) :: rest

/-- R28, R188: ERR is written by every write to CMD, with the code of that command alone, and by nothing else but the reset
event. -/
def Obligations.OnlyCommandsWriteErr : Prop :=
  ∀ s t : State, step s = .next t →
    (t.err ≠ s.err → ∃ rest, s.inputs = .reset :: rest ∨ ∃ b, s.inputs = .move (.write 0 b) :: rest) ∧
    ∀ (b : Byte) (rest : List Input) (e : BitVec 4), s.inputs = .move (.write 0 b) :: rest →
      ∃ t', step { s with err := e } = .next t' ∧ t'.err = t.err

/-! ### Host scripts -/

/-- R86: LOADI of a buffer that fits leaves exactly that buffer in IBUF, with ERR 0, whatever was there. -/
def Obligations.LoadiScriptLoadsBuffer : Prop :=
  ∀ (s t : State) (bs : List Byte), bs.length ≤ Config.params.bufcap →
    (scriptRuns [.loadi bs] s t ↔ t = { s with ibuf := bs, err := 0 })

/-- R86: SETBLK then GETBLK writes the block register and reads it back in order. -/
def Obligations.SetblkGetblkScriptReadsBack : Prop :=
  ∀ (s t : State) (b : Block),
    scriptRuns [.setblk b, .getblk] s t ↔ t = { s with blk := b, reads := s.reads ++ b.toList }

/-- R86: GETOUT reads the four bytes of OLEN, most significant first, and then OBUF at each index from 0 to OLEN - 1, for the
OLEN of the state it runs in. -/
def Obligations.GetoutScriptReadsOutput : Prop :=
  ∀ s t : State, s.Inv →
    (scriptRuns [.getout] s t ↔
      t = { s with
        reads := s.reads ++ [24, 16, 8, 0].map (fun k => BitVec.ofNat 8 (s.obuf.length / 2 ^ k)) ++ s.obuf })

/-- R86 says that a DRAWS line is no host move and states the oracle's answers to the next sixteen draws, in call order. That
the line runs exactly when its bytes are those answers, so that a script the oracle does not answer has no run, is the model's
choice (log entry 16). Where they are the answers, KEYGEN and KEYGET (R103, R104), or IVGEN (R160), then GETOUT read those
bytes back, and CBCENC (R162) uses them as the IV. -/
def Obligations.DrawsScriptStatesTheOraclesAnswers : Prop :=
  ∀ (s : State) (d : Block),
    (∀ t, scriptRuns [.draws d] s t ↔ (∀ i : Fin 16, Config.params.draw (s.draws + i.val) = d[i]) ∧ t = s) ∧
    ((∀ i : Fin 16, Config.params.draw (s.draws + i.val) = d[i]) →
      (∃ t, scriptRuns [.draws d, .cmd .keygen, .cmd .keyget, .getout] s t ∧ t.key = d ∧
        t.reads = s.reads ++ [0, 0, 0, 16] ++ d.toList) ∧
      (∃ t, scriptRuns [.draws d, .cmd .ivgen, .getout] s t ∧ t.reads = s.reads ++ [0, 0, 0, 16] ++ d.toList) ∧
      ∃ t, scriptRuns [.draws d, .cmd .cbcenc] s t ∧ t.obuf = cbcEncrypt Config.params s.rk s.ibuf d)
end

