-- ==== Sys2Proof/Laws/Bytes.lean ====
section
/-! SUPPORT. Laws of the byte and word operations of Machine/Bytes.lean and of the block packing of Machine/Block.lean. -/

namespace Sys2Proof.Machine

/-! ### Sixteen-byte blocks -/

theorem bytes16_getElem (f : Fin 16 → Byte) (i : Fin 16) : (bytes16 f)[i] = f i := by
  fin_cases i <;> rfl

theorem bytes16_getElem_nat (f : Fin 16 → Byte) (i : Nat) (h : i < 16) : (bytes16 f)[i] = f ⟨i, h⟩ :=
  bytes16_getElem f ⟨i, h⟩

theorem bytes16_congr (f g : Fin 16 → Byte) (h : ∀ i, f i = g i) : bytes16 f = bytes16 g :=
  congrArg bytes16 (funext h)

theorem block_ext (a b : Block) (h : ∀ i : Fin 16, a[i] = b[i]) : a = b := Vector.ext fun i hi => h ⟨i, hi⟩

theorem zeroBlock_eq_replicate : zeroBlock = Vector.replicate 16 0 := by decide

theorem xor16_getElem (s t : Block) (i : Nat) (h : i < 16) : (xor16 s t)[i] = s[i] ^^^ t[i] := bytes16_getElem_nat _ i h

/-- XORing the same block twice is no change. -/
theorem xor16_comm (a b : Block) : xor16 a b = xor16 b a :=
  congrArg bytes16 (funext fun i => BitVec.xor_comm a[i] b[i])

theorem xor16_xor16_cancel (a b : Block) : xor16 (xor16 a b) b = a := by
  refine Vector.ext fun i hi => ?_
  rw [xor16_getElem, xor16_getElem, BitVec.xor_assoc, BitVec.xor_self, BitVec.xor_zero]

/-- Changing one byte of the second operand by a mask changes that byte of the result by it. -/
theorem xor16_set_right (d p : Block) (i : Nat) (hi : i < 16) (m : Byte) :
    xor16 d (p.set i (p[i] ^^^ m)) = (xor16 d p).set i ((xor16 d p)[i] ^^^ m) := by
  refine Vector.ext fun j hj => ?_
  rw [Vector.getElem_set, xor16_getElem, Vector.getElem_set]
  split
  · subst_vars
    rw [xor16_getElem, BitVec.xor_assoc]
  · rw [xor16_getElem]

/-! ### Blocks of a byte sequence -/

theorem blockOf_congr (s t : List Byte) (h : ∀ i, i < 16 → s[i]? = t[i]?) : blockOf s = blockOf t :=
  bytes16_congr _ _ fun i => by rw [List.getD_eq_getElem?_getD, List.getD_eq_getElem?_getD, h i.val i.isLt]

/-- On a sequence of at least 16 bytes `blockOf` is its first 16 bytes. -/
theorem blockOf_toList (s : List Byte) (h : 16 ≤ s.length) : (blockOf s).toList = s.take 16 := by
  apply List.ext_getElem
  · simp; omega
  · intro i h1 _
    have hi : i < 16 := by simpa using h1
    simp only [Vector.getElem_toList]
    refine (bytes16_getElem_nat _ _ hi).trans ?_
    simp [List.getD_eq_getElem?_getD, List.getElem?_eq_getElem (show i < s.length by omega)]

theorem blockOf_append (b : Block) (s : List Byte) : blockOf (b.toList ++ s) = b := by
  refine block_ext _ _ fun i => (bytes16_getElem _ i).trans ?_
  rw [List.getD_eq_getElem?_getD, List.getElem?_append_left (by simp)]
  simp

theorem blockAt_eq_blockOf_drop (s : List Byte) (j : Nat) : blockAt s j = blockOf (s.drop (16 * j)) :=
  blockOf_congr _ _ fun i hi => by simp [memRead, hi]

theorem blockAt_succ (s : List Byte) (j : Nat) : blockAt s (j + 1) = blockAt (s.drop 16) j := by
  rw [blockAt_eq_blockOf_drop, blockAt_eq_blockOf_drop, List.drop_drop]
  congr 2
  omega

theorem blockAt_zero_append (b : Block) (s : List Byte) : blockAt (b.toList ++ s) 0 = b := by
  rw [blockAt_eq_blockOf_drop]
  exact blockOf_append b s

theorem blockAt_succ_append (b : Block) (s : List Byte) (j : Nat) : blockAt (b.toList ++ s) (j + 1) = blockAt s j := by
  rw [blockAt_succ]
  simp

/-- Setting a byte of the sequence inside block 0 sets that byte of the block. -/
theorem blockAt_zero_set (e : List Byte) (i : Nat) (hi : i < 16) (h : 16 ≤ e.length) (v : Byte) :
    blockAt (e.set i v) 0 = (blockAt e 0).set i v := by
  refine Vector.ext fun j hj => ?_
  have get : ∀ q : List Byte, (blockOf q)[j] = q.getD j 0 := fun q => bytes16_getElem_nat _ j hj
  rw [Vector.getElem_set, blockAt_eq_blockOf_drop, blockAt_eq_blockOf_drop, get, get, List.getD_eq_getElem?_getD,
    List.getD_eq_getElem?_getD, Nat.mul_zero, List.drop_zero, List.drop_zero, List.getElem?_set]
  split
  · rw [if_pos (by omega)]
    rfl
  · rfl

theorem blocks_succ (m : Nat) (s : List Byte) : blocks (m + 1) s = blockAt s 0 :: blocks m (s.drop 16) := by
  rw [blockAt_eq_blockOf_drop]
  rfl

@[simp] theorem blocks_length (m : Nat) (s : List Byte) : (blocks m s).length = m := by
  induction m generalizing s with
  | zero => rfl
  | succ m ih => simp [blocks, ih]

/-- The blocks of a sequence of whole blocks, joined, are the sequence. -/
theorem blocks_flatMap_toList (m : Nat) (P : List Byte) (h : P.length = 16 * m) : (blocks m P).flatMap Vector.toList = P := by
  induction m generalizing P with
  | zero => simp at h; simp [blocks, h]
  | succ m ih =>
    rw [blocks, List.flatMap_cons, ih _ (by simp; omega), blockOf_toList _ (by omega), List.take_append_drop]

/-! ### Word packing -/

theorem be32_toNat (b0 b1 b2 b3 : Byte) :
    (be32 b0 b1 b2 b3).toNat = b0.toNat * 2 ^ 24 + b1.toNat * 2 ^ 16 + b2.toNat * 2 ^ 8 + b3.toNat := by
  simp only [be32, BitVec.toNat_append]
  rw [← Nat.shiftLeft_add_eq_or_of_lt b1.isLt, ← Nat.shiftLeft_add_eq_or_of_lt b2.isLt, ← Nat.shiftLeft_add_eq_or_of_lt b3.isLt]
  simp only [Nat.shiftLeft_eq]
  omega

theorem unbe32_be32 (b0 b1 b2 b3 : Byte) : unbe32 (be32 b0 b1 b2 b3) 0 = b0 ∧ unbe32 (be32 b0 b1 b2 b3) 1 = b1 ∧
    unbe32 (be32 b0 b1 b2 b3) 2 = b2 ∧ unbe32 (be32 b0 b1 b2 b3) 3 = b3 := by
  have := b0.isLt
  have := b1.isLt
  have := b2.isLt
  have := b3.isLt
  refine ⟨?_, ?_, ?_, ?_⟩ <;>
    (apply BitVec.eq_of_toNat_eq; simp [unbe32, be32_toNat, Nat.shiftRight_eq_div_pow]; try omega)

theorem be32_unbe32 (w : Word) : be32 (unbe32 w 0) (unbe32 w 1) (unbe32 w 2) (unbe32 w 3) = w := by
  apply BitVec.eq_of_toNat_eq
  have := w.isLt
  rw [be32_toNat]
  simp [unbe32, Nat.shiftRight_eq_div_pow]
  omega

/-- A length register's byte as arithmetic on the length. -/
theorem lengthByte_eq_ofNat_div (n : Nat) (k : Fin 4) : lengthByte n k = BitVec.ofNat 8 (n / 2 ^ (24 - 8 * k.val)) := by
  apply BitVec.eq_of_toNat_eq
  fin_cases k <;> simp [lengthByte, unbe32, Nat.shiftRight_eq_div_pow] <;> omega

theorem wordAt_packWords (w0 w1 w2 w3 : Word) :
    wordAt (packWords w0 w1 w2 w3) 0 = w0 ∧ wordAt (packWords w0 w1 w2 w3) 1 = w1 ∧
    wordAt (packWords w0 w1 w2 w3) 2 = w2 ∧ wordAt (packWords w0 w1 w2 w3) 3 = w3 :=
  ⟨be32_unbe32 w0, be32_unbe32 w1, be32_unbe32 w2, be32_unbe32 w3⟩

theorem packWords_wordAt (b : Block) : packWords (wordAt b 0) (wordAt b 1) (wordAt b 2) (wordAt b 3) = b := by
  refine block_ext _ _ fun i => ?_
  fin_cases i
  · exact (unbe32_be32 _ _ _ _).1
  · exact (unbe32_be32 _ _ _ _).2.1
  · exact (unbe32_be32 _ _ _ _).2.2.1
  · exact (unbe32_be32 _ _ _ _).2.2.2
  · exact (unbe32_be32 _ _ _ _).1
  · exact (unbe32_be32 _ _ _ _).2.1
  · exact (unbe32_be32 _ _ _ _).2.2.1
  · exact (unbe32_be32 _ _ _ _).2.2.2
  · exact (unbe32_be32 _ _ _ _).1
  · exact (unbe32_be32 _ _ _ _).2.1
  · exact (unbe32_be32 _ _ _ _).2.2.1
  · exact (unbe32_be32 _ _ _ _).2.2.2
  · exact (unbe32_be32 _ _ _ _).1
  · exact (unbe32_be32 _ _ _ _).2.1
  · exact (unbe32_be32 _ _ _ _).2.2.1
  · exact (unbe32_be32 _ _ _ _).2.2.2

/-! ### Pairs of words and their rotation -/

theorem pair_toNat (a b : Word) : (pair a b).toNat = a.toNat * 2 ^ 32 + b.toNat := by
  refine (BitVec.toNat_append a b).trans ?_
  rw [← Nat.shiftLeft_add_eq_or_of_lt b.isLt, Nat.shiftLeft_eq]

theorem hiWord_toNat (v : DWord) : (hiWord v).toNat = v.toNat / 2 ^ 32 := by
  have := v.isLt
  simp [hiWord, Nat.shiftRight_eq_div_pow]
  omega

theorem loWord_toNat (v : DWord) : (loWord v).toNat = v.toNat % 2 ^ 32 := by
  simp [loWord]

theorem pair_hiWord_loWord (v : DWord) : pair (hiWord v) (loWord v) = v := by
  apply BitVec.eq_of_toNat_eq
  rw [pair_toNat, hiWord_toNat, loWord_toNat]
  omega

theorem hiWord_pair (a b : Word) : hiWord (pair a b) = a := by
  apply BitVec.eq_of_toNat_eq
  have := b.isLt
  rw [hiWord_toNat, pair_toNat]
  omega

theorem loWord_pair (a b : Word) : loWord (pair a b) = b := by
  apply BitVec.eq_of_toNat_eq
  have := b.isLt
  rw [loWord_toNat, pair_toNat]
  omega

theorem rotateLeft_getLsbD (v : DWord) (r i : Nat) (hi : i < 64) :
    (v.rotateLeft r).getLsbD i = v.getLsbD ((i + (64 - r % 64)) % 64) := by
  have : r % 64 < 64 := Nat.mod_lt _ (by omega)
  rw [BitVec.getLsbD_rotateLeft]
  by_cases h : i < r % 64
  · simp only [h, decide_true, cond_true]
    congr 1
    omega
  · simp only [h, decide_false, cond_false, hi, decide_true, Bool.true_and]
    congr 1
    omega

theorem rotateRight_getLsbD (v : DWord) (r i : Nat) (hi : i < 64) :
    (v.rotateRight r).getLsbD i = v.getLsbD ((i + r) % 64) := by
  have : r % 64 < 64 := Nat.mod_lt _ (by omega)
  rw [BitVec.getLsbD_rotateRight]
  by_cases h : i < 64 - r % 64
  · simp only [h, decide_true, cond_true]
    congr 1
    omega
  · simp only [h, decide_false, cond_false, hi, decide_true, Bool.true_and]
    congr 1
    omega

theorem rotateLeft_rotateLeft_add (v : DWord) (r q : Nat) : (v.rotateLeft r).rotateLeft q = v.rotateLeft (r + q) := by
  apply BitVec.eq_of_getLsbD_eq
  intro i hi
  rw [rotateLeft_getLsbD _ _ _ hi, rotateLeft_getLsbD _ _ _ (Nat.mod_lt _ (by omega)), rotateLeft_getLsbD _ _ _ hi]
  congr 1
  omega

theorem rotateRight_rotateRight_add (v : DWord) (r q : Nat) : (v.rotateRight r).rotateRight q = v.rotateRight (r + q) := by
  apply BitVec.eq_of_getLsbD_eq
  intro i hi
  rw [rotateRight_getLsbD _ _ _ hi, rotateRight_getLsbD _ _ _ (Nat.mod_lt _ (by omega)), rotateRight_getLsbD _ _ _ hi]
  congr 1
  omega

theorem rotateLeft_by_zero (v : DWord) : v.rotateLeft 0 = v := by
  apply BitVec.eq_of_getLsbD_eq
  intro i hi
  rw [rotateLeft_getLsbD _ _ _ hi]
  congr 1
  omega

theorem rotateRight_by_zero (v : DWord) : v.rotateRight 0 = v := by
  apply BitVec.eq_of_getLsbD_eq
  intro i hi
  rw [rotateRight_getLsbD _ _ _ hi]
  congr 1
  omega

/-- R14's formula for `rotl64(v,8)` is the rotation. -/
theorem rotl8_eq_rotateLeft (v : DWord) : rotl8 v = v.rotateLeft 8 := by
  have disjoint : (v <<< 8) &&& (v >>> 56) = 0#64 := by
    ext j hj
    by_cases h : j < 8
    · simp [h]
    · simp [h]
      intro _
      apply BitVec.getLsbD_of_ge
      omega
  rw [rotl8, BitVec.add_eq_or_of_and_eq_zero _ _ disjoint, BitVec.rotateLeft_def]

/-- R14's formula for `rotr64(v,8)` is the rotation. -/
theorem rotr8_eq_rotateRight (v : DWord) : rotr8 v = v.rotateRight 8 := by
  have low : (v &&& 0xFF) <<< 56 = v <<< 56 := by
    apply BitVec.eq_of_toNat_eq
    simp [BitVec.toNat_and, Nat.shiftLeft_eq]
    have := Nat.and_two_pow_sub_one_eq_mod v.toNat 8
    simp at this
    rw [this]
    omega
  have disjoint : (v >>> 8) &&& (v <<< 56) = 0#64 := by
    ext j hj
    by_cases h : j < 56
    · simp [h]
    · have : v.getLsbD (8 + j) = false := BitVec.getLsbD_of_ge _ _ (by omega)
      simp [h, this]
  rw [rotr8, low, BitVec.add_eq_or_of_and_eq_zero _ _ disjoint, BitVec.rotateRight_def]

end Sys2Proof.Machine
end

