-- ==== Sys2Proof/Laws/Cipher.lean ====
section
/-! SUPPORT. Laws of the key schedule, the Feistel round, the padding and the CBC loops: one law says what each function
gives, and the provers cite it. -/

namespace Sys2Proof.Machine

/-! ### Key schedule -/

theorem rounds_getElem (i : Fin 16) : rounds[i.val]'(by simp [rounds]) = i := by revert i; decide

/-- The working copies used in round i: the key words after the rotations of the earlier rounds (R130). -/
def keyWordsBefore (k : Block) (i : Fin 16) : KeyWords := (rounds.take i.val).foldl rotateKeyWords (keyWords k)

theorem scheduleFrom_getElem? (c : Params) (k : KeyWords) (is : List (Fin 16)) (j : Nat) (hj : j < is.length) :
    (scheduleFrom c k is)[2 * j]? = some (G c (scheduleT0 c ((is.take j).foldl rotateKeyWords k) is[j])) ∧
    (scheduleFrom c k is)[2 * j + 1]? = some (G c (scheduleT1 c ((is.take j).foldl rotateKeyWords k) is[j])) := by
  induction is generalizing k j with
  | nil => simp at hj
  | cons i is ih =>
    cases j with
    | zero => simp [scheduleFrom]
    | succ j => simpa [scheduleFrom, Nat.mul_add, Nat.add_right_comm] using ih (rotateKeyWords k i) j (by simpa using hj)

/-- `rk[2i] = G(T0)` of round i (R130). -/
theorem keySchedule_getElem_even (c : Params) (k : Block) (i : Fin 16) :
    (keySchedule c k)[2 * i.val]'(by omega) = G c (scheduleT0 c (keyWordsBefore k i) i) := by
  obtain ⟨_, e⟩ := List.getElem?_eq_some_iff.1 (scheduleFrom_getElem? c (keyWords k) rounds i.val (by simp [rounds])).1
  rw [rounds_getElem] at e
  exact e

/-- `rk[2i+1] = G(T1)` of round i (R130). -/
theorem keySchedule_getElem_odd (c : Params) (k : Block) (i : Fin 16) :
    (keySchedule c k)[2 * i.val + 1]'(by omega) = G c (scheduleT1 c (keyWordsBefore k i) i) := by
  obtain ⟨_, e⟩ := List.getElem?_eq_some_iff.1 (scheduleFrom_getElem? c (keyWords k) rounds i.val (by simp [rounds])).2
  rw [rounds_getElem] at e
  exact e

/-- One round's rotation, on the two pairs as 64-bit numbers (R130, R133). -/
theorem rotateKeyWords_pairs (k : KeyWords) (i : Fin 16) :
    pair (rotateKeyWords k i).K0 (rotateKeyWords k i).K1 = (pair k.K0 k.K1).rotateLeft (if i.val % 2 = 0 then 8 else 0) ∧
    pair (rotateKeyWords k i).K2 (rotateKeyWords k i).K3 = (pair k.K2 k.K3).rotateRight (if i.val % 2 = 0 then 0 else 8) := by
  unfold rotateKeyWords
  split
  · simp only [pair_hiWord_loWord, rotl8_eq_rotateLeft, rotateRight_by_zero, and_self]
  · simp only [pair_hiWord_loWord, rotr8_eq_rotateRight, rotateLeft_by_zero, and_self]

/-! ### Block transforms -/

/-- The halves exchanged: what the output order `R0 || R1 || L0 || L1` does when the block is read again. -/
def BlockWords.swap (w : BlockWords) : BlockWords := ⟨w.R0, w.R1, w.L0, w.L1⟩

theorem blockWords_outputBlock (w : BlockWords) : blockWords (outputBlock w) = w.swap := by
  have := wordAt_packWords w.R0 w.R1 w.L0 w.L1
  simp only [blockWords, outputBlock, this, BlockWords.swap]

theorem outputBlock_swap_blockWords (b : Block) : outputBlock (blockWords b).swap = b := packWords_wordAt b

/-- A round undoes itself across the exchange of halves: the step of the proof sketch of R143. -/
theorem feistelRound_swap_feistelRound (c : Params) (rk : RoundKeys) (w : BlockWords) (i : Fin 16) :
    feistelRound c rk (feistelRound c rk w i).swap i = w.swap := by
  simp [feistelRound, BlockWords.swap]

/-! ### Padding -/

theorem padLength_bounds (n : Nat) : 1 ≤ padLength n ∧ padLength n ≤ 16 := by unfold padLength; omega

theorem addPadding_length (s : List Byte) : (addPadding s).length = 16 * (s.length / 16 + 1) := by
  simp [addPadding, padLength]
  omega

/-- The test on the trailing bytes, index by index (R151). -/
theorem drop_all_beq_iff (s : List Byte) (last : Byte) (n : Nat) :
    (s.drop n).all (fun b => b == last) = true ↔ ∀ k, n ≤ k → k < s.length → s[k]? = some last := by
  rw [List.all_eq_true]
  constructor
  · intro h k hk hl
    have mem : s[k] ∈ s.drop n := List.mem_iff_getElem.2 ⟨k - n, by simp; omega, by simp; congr 1; omega⟩
    have := h _ mem
    simp at this
    rw [List.getElem?_eq_getElem hl, this]
  · intro h x hx
    obtain ⟨i, hi, rfl⟩ := List.mem_iff_getElem.1 hx
    simp at hi
    have := h (n + i) (by omega) (by omega)
    rw [List.getElem?_eq_getElem (by omega)] at this
    simpa using this

/-- All five failures are the same error kind (R151). -/
theorem removePadding_error_eq (s : List Byte) (e : ErrorKind) (h : removePadding s = .error e) : e = .padding := by
  unfold removePadding at h
  split at h
  · cases h; rfl
  · simp only at h
    split_ifs at h <;> cases h <;> rfl

/-- A successful removal took p bytes of value p, 1 <= p <= 16, off the end (R151). -/
theorem removePadding_ok_eq (s r : List Byte) (h : removePadding s = .ok r) :
    ∃ p, 1 ≤ p ∧ p ≤ 16 ∧ s = r ++ List.replicate p (BitVec.ofNat 8 p) := by
  unfold removePadding at h
  split at h
  · cases h
  · rename_i last hl
    simp only at h
    split_ifs at h with h1 h2 h3 h4
    cases h
    refine ⟨last.toNat, by omega, by omega, ?_⟩
    conv_lhs => rw [← List.take_append_drop (s.length - last.toNat) s]
    congr 1
    rw [List.eq_replicate_iff]
    refine ⟨by simp; omega, fun b hb => ?_⟩
    rw [List.all_eq_true] at h4
    simpa using h4 b hb

/-- What RemovePadding can do: a shorter buffer, or a PaddingError (R151). -/
theorem removePadding_cases (s : List Byte) :
    (∃ r, removePadding s = .ok r ∧ r.length < s.length) ∨ removePadding s = .error .padding := by
  cases h : removePadding s with
  | ok r =>
    obtain ⟨p, h1, _, e⟩ := removePadding_ok_eq _ _ h
    exact .inl ⟨r, rfl, by rw [e]; simp; omega⟩
  | error e => exact .inr (by rw [removePadding_error_eq _ _ h])

/-! ### CBC -/

theorem encryptChain_length (c : Params) (rk : RoundKeys) (prev : Block) (bs : List Block) :
    (encryptChain c rk prev bs).length = 16 * bs.length := by
  induction bs generalizing prev with
  | nil => rfl
  | cons b bs ih => simp [encryptChain, ih]; omega

theorem decryptChain_length (c : Params) (rk : RoundKeys) (prev : Block) (bs : List Block) :
    (decryptChain c rk prev bs).length = 16 * bs.length := by
  induction bs generalizing prev with
  | nil => rfl
  | cons b bs ih => simp [decryptChain, ih]; omega

theorem assembledPlaintext_length (c : Params) (rk : RoundKeys) (e : List Byte) (h : 32 ≤ e.length)
    (h16 : (e.length - 16) % 16 = 0) : (assembledPlaintext c rk e).length = e.length - 16 := by
  rw [assembledPlaintext, decryptChain_length, blocks_length]
  omega

/-- What CbcDecrypt can do, with the order of its tests (R164). -/
theorem cbcDecrypt_cases (c : Params) (rk : RoundKeys) (e : List Byte) :
    (e.length < 32 ∧ cbcDecrypt c rk e = .error .envelopeTooShort) ∨
    (32 ≤ e.length ∧ (e.length - 16) % 16 ≠ 0 ∧ cbcDecrypt c rk e = .error .envelopeMisaligned) ∨
    (32 ≤ e.length ∧ (e.length - 16) % 16 = 0 ∧ cbcDecrypt c rk e = removePadding (assembledPlaintext c rk e)) := by
  unfold cbcDecrypt
  split_ifs <;> simp_all

/-- The assembled plaintext of a one-block envelope. -/
theorem assembledPlaintext_one_block (c : Params) (rk : RoundKeys) (iv b : Block) :
    assembledPlaintext c rk (iv.toList ++ b.toList) = (xor16 (decryptBlock c rk b) iv).toList := by
  have len : (iv.toList ++ b.toList).length / 16 - 1 = 1 := by simp
  have rest : (iv.toList ++ b.toList).drop 16 = b.toList ++ [] := by simp
  rw [assembledPlaintext, len, rest, blocks_succ, blockAt_zero_append, blockAt_zero_append]
  simp [decryptChain, blocks]

end Sys2Proof.Machine
end

