-- ==== Sys2Proof/Laws/State.lean ====
section
/-! SUPPORT. What each named update of the state does to each field: one lemma per field per update, true by rfl, so that no
later proof unfolds a record update. -/

namespace Sys2Proof.Machine

@[simp] theorem State.replaceKey_key (c : Params) (k : Block) (s : State) : (s.replaceKey c k).key = k := rfl
@[simp] theorem State.replaceKey_rk (c : Params) (k : Block) (s : State) : (s.replaceKey c k).rk = keySchedule c k := rfl
@[simp] theorem State.replaceKey_blk (c : Params) (k : Block) (s : State) : (s.replaceKey c k).blk = s.blk := rfl
@[simp] theorem State.replaceKey_ibuf (c : Params) (k : Block) (s : State) : (s.replaceKey c k).ibuf = s.ibuf := rfl
@[simp] theorem State.replaceKey_obuf (c : Params) (k : Block) (s : State) : (s.replaceKey c k).obuf = s.obuf := rfl
@[simp] theorem State.replaceKey_err (c : Params) (k : Block) (s : State) : (s.replaceKey c k).err = s.err := rfl
@[simp] theorem State.replaceKey_draws (c : Params) (k : Block) (s : State) : (s.replaceKey c k).draws = s.draws := rfl
@[simp] theorem State.replaceKey_inputs (c : Params) (k : Block) (s : State) : (s.replaceKey c k).inputs = s.inputs := rfl
@[simp] theorem State.replaceKey_reads (c : Params) (k : Block) (s : State) : (s.replaceKey c k).reads = s.reads := rfl

@[simp] theorem State.setBlk_key (b : Block) (s : State) : (s.setBlk b).key = s.key := rfl
@[simp] theorem State.setBlk_rk (b : Block) (s : State) : (s.setBlk b).rk = s.rk := rfl
@[simp] theorem State.setBlk_blk (b : Block) (s : State) : (s.setBlk b).blk = b := rfl
@[simp] theorem State.setBlk_ibuf (b : Block) (s : State) : (s.setBlk b).ibuf = s.ibuf := rfl
@[simp] theorem State.setBlk_obuf (b : Block) (s : State) : (s.setBlk b).obuf = s.obuf := rfl
@[simp] theorem State.setBlk_err (b : Block) (s : State) : (s.setBlk b).err = s.err := rfl
@[simp] theorem State.setBlk_draws (b : Block) (s : State) : (s.setBlk b).draws = s.draws := rfl
@[simp] theorem State.setBlk_inputs (b : Block) (s : State) : (s.setBlk b).inputs = s.inputs := rfl
@[simp] theorem State.setBlk_reads (b : Block) (s : State) : (s.setBlk b).reads = s.reads := rfl

@[simp] theorem State.setIbuf_key (b : List Byte) (s : State) : (s.setIbuf b).key = s.key := rfl
@[simp] theorem State.setIbuf_rk (b : List Byte) (s : State) : (s.setIbuf b).rk = s.rk := rfl
@[simp] theorem State.setIbuf_blk (b : List Byte) (s : State) : (s.setIbuf b).blk = s.blk := rfl
@[simp] theorem State.setIbuf_ibuf (b : List Byte) (s : State) : (s.setIbuf b).ibuf = b := rfl
@[simp] theorem State.setIbuf_obuf (b : List Byte) (s : State) : (s.setIbuf b).obuf = s.obuf := rfl
@[simp] theorem State.setIbuf_err (b : List Byte) (s : State) : (s.setIbuf b).err = s.err := rfl
@[simp] theorem State.setIbuf_draws (b : List Byte) (s : State) : (s.setIbuf b).draws = s.draws := rfl
@[simp] theorem State.setIbuf_inputs (b : List Byte) (s : State) : (s.setIbuf b).inputs = s.inputs := rfl
@[simp] theorem State.setIbuf_reads (b : List Byte) (s : State) : (s.setIbuf b).reads = s.reads := rfl

@[simp] theorem State.setObuf_key (b : List Byte) (s : State) : (s.setObuf b).key = s.key := rfl
@[simp] theorem State.setObuf_rk (b : List Byte) (s : State) : (s.setObuf b).rk = s.rk := rfl
@[simp] theorem State.setObuf_blk (b : List Byte) (s : State) : (s.setObuf b).blk = s.blk := rfl
@[simp] theorem State.setObuf_ibuf (b : List Byte) (s : State) : (s.setObuf b).ibuf = s.ibuf := rfl
@[simp] theorem State.setObuf_obuf (b : List Byte) (s : State) : (s.setObuf b).obuf = b := rfl
@[simp] theorem State.setObuf_err (b : List Byte) (s : State) : (s.setObuf b).err = s.err := rfl
@[simp] theorem State.setObuf_draws (b : List Byte) (s : State) : (s.setObuf b).draws = s.draws := rfl
@[simp] theorem State.setObuf_inputs (b : List Byte) (s : State) : (s.setObuf b).inputs = s.inputs := rfl
@[simp] theorem State.setObuf_reads (b : List Byte) (s : State) : (s.setObuf b).reads = s.reads := rfl

@[simp] theorem State.consumeDraws_key (s : State) : (s.consumeDraws).key = s.key := rfl
@[simp] theorem State.consumeDraws_rk (s : State) : (s.consumeDraws).rk = s.rk := rfl
@[simp] theorem State.consumeDraws_blk (s : State) : (s.consumeDraws).blk = s.blk := rfl
@[simp] theorem State.consumeDraws_ibuf (s : State) : (s.consumeDraws).ibuf = s.ibuf := rfl
@[simp] theorem State.consumeDraws_obuf (s : State) : (s.consumeDraws).obuf = s.obuf := rfl
@[simp] theorem State.consumeDraws_err (s : State) : (s.consumeDraws).err = s.err := rfl
@[simp] theorem State.consumeDraws_draws (s : State) : (s.consumeDraws).draws = s.draws + 16 := rfl
@[simp] theorem State.consumeDraws_inputs (s : State) : (s.consumeDraws).inputs = s.inputs := rfl
@[simp] theorem State.consumeDraws_reads (s : State) : (s.consumeDraws).reads = s.reads := rfl

@[simp] theorem State.logRead_key (b : Byte) (s : State) : (s.logRead b).key = s.key := rfl
@[simp] theorem State.logRead_rk (b : Byte) (s : State) : (s.logRead b).rk = s.rk := rfl
@[simp] theorem State.logRead_blk (b : Byte) (s : State) : (s.logRead b).blk = s.blk := rfl
@[simp] theorem State.logRead_ibuf (b : Byte) (s : State) : (s.logRead b).ibuf = s.ibuf := rfl
@[simp] theorem State.logRead_obuf (b : Byte) (s : State) : (s.logRead b).obuf = s.obuf := rfl
@[simp] theorem State.logRead_err (b : Byte) (s : State) : (s.logRead b).err = s.err := rfl
@[simp] theorem State.logRead_draws (b : Byte) (s : State) : (s.logRead b).draws = s.draws := rfl
@[simp] theorem State.logRead_inputs (b : Byte) (s : State) : (s.logRead b).inputs = s.inputs := rfl
@[simp] theorem State.logRead_reads (b : Byte) (s : State) : (s.logRead b).reads = s.reads ++ [b] := rfl

@[simp] theorem State.succeed_key (s : State) : (s.succeed).key = s.key := rfl
@[simp] theorem State.succeed_rk (s : State) : (s.succeed).rk = s.rk := rfl
@[simp] theorem State.succeed_blk (s : State) : (s.succeed).blk = s.blk := rfl
@[simp] theorem State.succeed_ibuf (s : State) : (s.succeed).ibuf = s.ibuf := rfl
@[simp] theorem State.succeed_obuf (s : State) : (s.succeed).obuf = s.obuf := rfl
@[simp] theorem State.succeed_err (s : State) : (s.succeed).err = okCode := rfl
@[simp] theorem State.succeed_draws (s : State) : (s.succeed).draws = s.draws := rfl
@[simp] theorem State.succeed_inputs (s : State) : (s.succeed).inputs = s.inputs := rfl
@[simp] theorem State.succeed_reads (s : State) : (s.succeed).reads = s.reads := rfl

@[simp] theorem State.raise_key (e : ErrorKind) (o : Bool) (s : State) : (s.raise e o).key = s.key := rfl
@[simp] theorem State.raise_rk (e : ErrorKind) (o : Bool) (s : State) : (s.raise e o).rk = s.rk := rfl
@[simp] theorem State.raise_blk (e : ErrorKind) (o : Bool) (s : State) : (s.raise e o).blk = s.blk := rfl
@[simp] theorem State.raise_ibuf (e : ErrorKind) (o : Bool) (s : State) : (s.raise e o).ibuf = s.ibuf := rfl
@[simp] theorem State.raise_obuf (e : ErrorKind) (o : Bool) (s : State) : (s.raise e o).obuf = if o then [] else s.obuf := rfl
@[simp] theorem State.raise_err (e : ErrorKind) (o : Bool) (s : State) : (s.raise e o).err = e.code := rfl
@[simp] theorem State.raise_draws (e : ErrorKind) (o : Bool) (s : State) : (s.raise e o).draws = s.draws := rfl
@[simp] theorem State.raise_inputs (e : ErrorKind) (o : Bool) (s : State) : (s.raise e o).inputs = s.inputs := rfl
@[simp] theorem State.raise_reads (e : ErrorKind) (o : Bool) (s : State) : (s.raise e o).reads = s.reads := rfl

@[simp] theorem State.resetEvent_key (c : Params) (s : State) : (s.resetEvent c).key = zeroBlock := rfl
@[simp] theorem State.resetEvent_rk (c : Params) (s : State) : (s.resetEvent c).rk = keySchedule c zeroBlock := rfl
@[simp] theorem State.resetEvent_blk (c : Params) (s : State) : (s.resetEvent c).blk = zeroBlock := rfl
@[simp] theorem State.resetEvent_ibuf (c : Params) (s : State) : (s.resetEvent c).ibuf = [] := rfl
@[simp] theorem State.resetEvent_obuf (c : Params) (s : State) : (s.resetEvent c).obuf = [] := rfl
@[simp] theorem State.resetEvent_err (c : Params) (s : State) : (s.resetEvent c).err = 0 := rfl
@[simp] theorem State.resetEvent_draws (c : Params) (s : State) : (s.resetEvent c).draws = s.draws := rfl
@[simp] theorem State.resetEvent_inputs (c : Params) (s : State) : (s.resetEvent c).inputs = s.inputs := rfl
@[simp] theorem State.resetEvent_reads (c : Params) (s : State) : (s.resetEvent c).reads = s.reads := rfl

@[simp] theorem State.withCommand_key (op : Byte) (s : State) : (s.withCommand op).key = s.key := rfl
@[simp] theorem State.withCommand_rk (op : Byte) (s : State) : (s.withCommand op).rk = s.rk := rfl
@[simp] theorem State.withCommand_blk (op : Byte) (s : State) : (s.withCommand op).blk = s.blk := rfl
@[simp] theorem State.withCommand_ibuf (op : Byte) (s : State) : (s.withCommand op).ibuf = s.ibuf := rfl
@[simp] theorem State.withCommand_obuf (op : Byte) (s : State) : (s.withCommand op).obuf = s.obuf := rfl
@[simp] theorem State.withCommand_err (op : Byte) (s : State) : (s.withCommand op).err = s.err := rfl
@[simp] theorem State.withCommand_draws (op : Byte) (s : State) : (s.withCommand op).draws = s.draws := rfl
@[simp] theorem State.withCommand_inputs (op : Byte) (s : State) : (s.withCommand op).inputs = .move (.write 0 op) :: s.inputs := rfl
@[simp] theorem State.withCommand_reads (op : Byte) (s : State) : (s.withCommand op).reads = s.reads := rfl

end Sys2Proof.Machine
end

