-- ==== Sys2Proof/Laws/Ops.lean ====
section
/-! SUPPORT. Laws of the shared operations, the host port and the step: what each can do, said once. -/

namespace Sys2Proof.Machine

/-! ### Configuration and status -/

theorem bufcap_lower : 32 ≤ Config.params.bufcap := by simp [Config.params]

theorem bufcap_upper : Config.params.bufcap ≤ 2 ^ 30 - 32 := by
  have := Config.bufcapOffset.isLt
  simp [Config.params]
  omega

theorem isValid_iff (k : Block) : isValid k = true ↔ ∃ i : Fin 16, k[i] ≠ 0 := by simp [isValid]

/-- The fields of a status byte (R28). -/
theorem status_fields (v : Bool) (e : BitVec 4) :
    let b : Byte := BitVec.ofBool v ++ (0 : BitVec 3) ++ e
    b.extractLsb' 0 4 = e ∧ b.extractLsb' 4 3 = 0 ∧ b.getLsbD 7 = v := by
  revert v e
  decide

theorem status_after_success (v : Bool) :
    BitVec.ofBool v ++ (0 : BitVec 3) ++ (0 : BitVec 4) = if v = true then (0x80 : Byte) else 0 := by
  cases v <;> rfl

/-! ### Producing output -/

/-- What the output template can do (R88). -/
theorem produce_cases (r : Except ErrorKind (List Byte)) (s : State) :
    (∃ out, r = .ok out ∧ s.produce r = { s with obuf := out, err := 0 }) ∨
    (∃ e, r = .error e ∧ s.produce r = { s with obuf := [], err := e.code }) := by
  cases r with
  | ok out => exact .inl ⟨out, rfl, rfl⟩
  | error e => exact .inr ⟨e, rfl, rfl⟩

/-! ### The address map -/

/-- Where each region stands (R53). -/
theorem region_spec (a : Addr) :
    match region a with
    | .cmd => a.toNat = 0
    | .status => a.toNat = 1
    | .idata => a.toNat = 2
    | .ilen k => a.toNat = 4 + k.val
    | .olen k => a.toNat = 8 + k.val
    | .blk i => a.toNat = 16 + i.val
    | .window i => a.toNat = 0x40000000 + i
    | .unmapped => a.toNat = 3 ∨ (12 ≤ a.toNat ∧ a.toNat < 16) ∨ (32 ≤ a.toNat ∧ a.toNat < 0x40000000) := by
  unfold region
  simp only
  split_ifs <;> (try simp only) <;> omega

theorem region_blk (i : Fin 16) : region (BitVec.ofNat 32 (0x10 + i.val)) = .blk i := by revert i; decide

theorem region_ilen (k : Fin 4) : region (BitVec.ofNat 32 (0x04 + k.val)) = .ilen k := by revert k; decide

theorem region_olen (k : Fin 4) : region (BitVec.ofNat 32 (0x08 + k.val)) = .olen k := by revert k; decide

theorem region_window (i : Nat) (h : i < 0xC0000000) : region (BitVec.ofNat 32 (0x40000000 + i)) = .window i := by
  have : (BitVec.ofNat 32 (0x40000000 + i)).toNat = 0x40000000 + i := by simp; omega
  simp only [region, this]
  rw [if_neg (by omega), if_neg (by omega), if_neg (by omega), dif_neg (by omega), dif_neg (by omega), dif_neg (by omega),
    if_pos (by omega)]
  exact congrArg Region.window (Nat.add_sub_cancel_left ..)

/-- A read is legal exactly when it returns a byte (R51, R53). -/
theorem readByte_cases (a : Addr) (s : State) :
    (legalMove s (.read a) ∧ ∃ b, readByte a s = .ok b) ∨ (¬ legalMove s (.read a) ∧ ∃ r, readByte a s = .error r) := by
  have := region_spec a
  unfold readByte legalMove
  generalize region a = r at *
  cases r with
  | cmd => right; simp at this ⊢; omega
  | status => left; simp at this ⊢; omega
  | idata => right; simp at this ⊢; omega
  | ilen k => left; simp at this ⊢; omega
  | olen k => left; simp at this ⊢; omega
  | blk k => left; simp at this ⊢; omega
  | window i =>
    simp only at this ⊢
    by_cases h : i < s.obuf.length
    · left; simp [h]; omega
    · right; simp [h]; omega
  | unmapped => right; simp at this ⊢; omega

/-! ### Issuing a command -/

theorem decode_encode (i : Instr) : decode (encode i) = .ok i := by cases i <;> rfl

/-- What a write to CMD can do (R80, R83). -/
theorem issueCommand_cases (b : Byte) (s : State) :
    (∃ i, decode b = .ok i ∧ issueCommand b s = exec i s) ∨
    ((∀ i, decode b ≠ .ok i) ∧ issueCommand b s = .next { s with err := 15 }) := by
  unfold issueCommand
  cases decode b with
  | ok i => exact .inl ⟨i, rfl, rfl⟩
  | error e => exact .inr ⟨fun i h => (by cases h), rfl⟩

/-! ### The step -/

theorem step_of_inputs (s : State) (x : Input) (rest : List Input) (h : s.inputs = x :: rest) :
    step s = takeInput x { s with inputs := rest } := by
  simp [step, nextInput, h]

theorem step_of_read (s : State) (a : Addr) (b : Byte) (rest : List Input) (h : s.inputs = .move (.read a) :: rest)
    (hb : readByte a s = .ok b) : step s = .next { s with inputs := rest, reads := s.reads ++ [b] } := by
  have hb' : readByte a { s with inputs := rest } = .ok b := hb
  rw [step_of_inputs s _ _ h]
  show hostRead a _ = _
  rw [hostRead, hb']
  rfl

/-- What a step that answers a next state can have done: nothing, a reset, a read, a command, an append to IBUF, or a write of
one byte of BLK. -/
theorem step_cases (s t : State) (h : step s = .next t) :
    (s.inputs = [] ∧ t = s) ∨ ∃ x rest, s.inputs = x :: rest ∧
      ((x = .reset ∧ t = { State.reset with inputs := rest, reads := s.reads, draws := s.draws }) ∨
       (∃ a b, x = .move (.read a) ∧ readByte a s = .ok b ∧ t = { s with inputs := rest, reads := s.reads ++ [b] }) ∨
       (∃ b, x = .move (.write 0 b) ∧ issueCommand b { s with inputs := rest } = .next t) ∨
       (∃ b, x = .move (.write 2 b) ∧ s.ibuf.length < Config.params.bufcap ∧
         t = { s with inputs := rest, ibuf := s.ibuf ++ [b] }) ∨
       (∃ a i b, x = .move (.write a b) ∧ region a = .blk i ∧ t = { s with inputs := rest, blk := s.blk.set i.val b })) := by
  cases hi : s.inputs with
  | nil =>
    left
    simp only [step, nextInput, hi] at h
    cases h
    exact ⟨rfl, rfl⟩
  | cons x rest =>
    right
    rw [step_of_inputs s _ _ hi] at h
    refine ⟨x, rest, rfl, ?_⟩
    match x with
    | .reset => left; cases h; exact ⟨rfl, rfl⟩
    | .move (.read a) =>
      right; left
      change hostRead a _ = _ at h
      unfold hostRead at h
      cases hb : readByte a { s with inputs := rest } with
      | ok b => rw [hb] at h; cases h; exact ⟨a, b, rfl, hb, rfl⟩
      | error e => rw [hb] at h; cases h
    | .move (.write a b) =>
      right; right
      change hostWrite a b _ = _ at h
      have hr := region_spec a
      unfold hostWrite at h
      cases hra : region a with
      | cmd =>
        rw [hra] at h hr
        have : a = 0 := BitVec.eq_of_toNat_eq (by simpa using hr)
        subst this
        exact .inl ⟨b, rfl, h⟩
      | idata =>
        rw [hra] at h hr
        have : a = 2 := BitVec.eq_of_toNat_eq (by simpa using hr)
        subst this
        simp only [pushByte] at h
        split at h
        · rename_i hl
          cases h
          exact .inr (.inl ⟨b, rfl, hl, rfl⟩)
        · cases h
      | blk i => rw [hra] at h; cases h; exact .inr (.inr ⟨a, i, b, rfl, hra, rfl⟩)
      | status => rw [hra] at h; cases h
      | ilen k => rw [hra] at h; cases h
      | olen k => rw [hra] at h; cases h
      | window k => rw [hra] at h; cases h
      | unmapped => rw [hra] at h; cases h

/-! ### Runs -/

@[simp] theorem runSteps_zero (s : State) : runSteps 0 s = .next s := rfl

theorem runSteps_succ (n : Nat) (s t : State) (h : step s = .next t) : runSteps (n + 1) s = runSteps n t := by
  rw [runSteps, h]

/-- A run of the host's machine whose first step answers a next state. -/
theorem core_run_succ (M : Host.Core) (n : Nat) (s t : M.State) (h : M.step s = .next t) : M.run (n + 1) s = M.run n t := by
  rw [Host.Core.run, h]

/-- `runSteps` is the run of the host's interface, wherever it reaches a state. -/
theorem core_run_of_runSteps (n : Nat) (s t : State) (h : runSteps n s = .next t) :
    Host.Core.run Sys2Proof.core n s = .next t := by
  induction n generalizing s with
  | zero => exact h
  | succ n ih =>
    rw [runSteps] at h
    cases hs : step s with
    | next u =>
      rw [hs] at h
      exact (core_run_succ Sys2Proof.core n s u hs).trans (ih u h)
    | fault r => rw [hs] at h; cases h
    | refused r => rw [hs] at h; cases h

end Sys2Proof.Machine
end

