-- ==== Sys2Proof/WellFormed.lean ====
section
/-! DEFINITION. The checks on what is handed to the machine. A command has no field that could be out of range (R82), so
every `Instr` is well formed; what can be ill formed is a parameter set (R9) or a host move (R51, R53). -/

namespace Sys2Proof

/-- Every command is well formed: "No command carries an immediate, a register number or an address" (R82). -/
def Instr.wf (i : Instr) : Bool :=
  match i with
  | .keyclr | .keyset | .keygen | .keyget | .encb | .decb | .padadd | .padrem | .ivgen | .cbcenc | .cbcdec | .iclr => true

/-- The constraint of R9 on the parameters, `32 <= BUFCAP <= 2^30 - 32`; the others are unconstrained. -/
def Params.wf (c : Params) : Bool := decide (32 ≤ c.bufcap ∧ c.bufcap ≤ 2 ^ 30 - 32)

namespace Machine

/-- A move the access column of R53 allows in some state: a write of CMD, IDATA or BLK, a read of STATUS, ILEN, OLEN, BLK
or the OBUF window, which "never reaches 0x8000_0000" (R57). Whether it is legal now also depends on ILEN and OLEN. -/
def HostMove.wf (m : HostMove) : Bool :=
  match m with
  | .write a _ =>
    match region a with
    | .cmd | .idata | .blk _ => true
    | .status | .ilen _ | .olen _ | .window _ | .unmapped => false
  | .read a =>
    match region a with
    | .status | .ilen _ | .olen _ | .blk _ => true
    | .window i => decide (i < 0x40000000)
    | .cmd | .idata | .unmapped => false

end Machine

end Sys2Proof
end

