-- ==== Sys2Proof/Laws/PerInstr.lean ====
section
/-! SUPPORT. Statements about commands as syntax, made per constructor: each is well formed, and its opcode byte and its table
word decode to it. -/

namespace Sys2Proof.Laws

/-- A command is well formed (R82) and its encoding decodes to it, as a byte and as the opcode table's word. -/
def Roundtrip.Statement (i : Instr) : Prop :=
  i.wf = true ∧ decode (encode i) = .ok i ∧ decodeTableWord 8 (encode i).toNat = some i

theorem Roundtrip.keyclr : Roundtrip.Statement .keyclr := ⟨rfl, rfl, rfl⟩
theorem Roundtrip.keyset : Roundtrip.Statement .keyset := ⟨rfl, rfl, rfl⟩
theorem Roundtrip.keygen : Roundtrip.Statement .keygen := ⟨rfl, rfl, rfl⟩
theorem Roundtrip.keyget : Roundtrip.Statement .keyget := ⟨rfl, rfl, rfl⟩
theorem Roundtrip.encb : Roundtrip.Statement .encb := ⟨rfl, rfl, rfl⟩
theorem Roundtrip.decb : Roundtrip.Statement .decb := ⟨rfl, rfl, rfl⟩
theorem Roundtrip.padadd : Roundtrip.Statement .padadd := ⟨rfl, rfl, rfl⟩
theorem Roundtrip.padrem : Roundtrip.Statement .padrem := ⟨rfl, rfl, rfl⟩
theorem Roundtrip.ivgen : Roundtrip.Statement .ivgen := ⟨rfl, rfl, rfl⟩
theorem Roundtrip.cbcenc : Roundtrip.Statement .cbcenc := ⟨rfl, rfl, rfl⟩
theorem Roundtrip.cbcdec : Roundtrip.Statement .cbcdec := ⟨rfl, rfl, rfl⟩
theorem Roundtrip.iclr : Roundtrip.Statement .iclr := ⟨rfl, rfl, rfl⟩

end Sys2Proof.Laws

namespace Sys2Proof

/-- No two rows of the opcode map overlap (R81): every mask is whole, and the patterns differ. -/
theorem opcodeTable_disjoint : (opcodeTable.all fun r => r.mask == 0xFF) = true ∧ (opcodeTable.map OpcodeRow.pattern).Nodup := by
  decide

end Sys2Proof
end

