-- ==== Sys2Proof/Laws/Script.lean ====
section
/-! SUPPORT. Laws of scripts and of the runs of their moves: what a series of reads, of IDATA writes or of BLK writes does,
said once, by induction on the series. -/

namespace Sys2Proof.Machine

@[simp] theorem State.withMoves_key (ms : List HostMove) (s : State) : (s.withMoves ms).key = s.key := rfl
@[simp] theorem State.withMoves_rk (ms : List HostMove) (s : State) : (s.withMoves ms).rk = s.rk := rfl
@[simp] theorem State.withMoves_blk (ms : List HostMove) (s : State) : (s.withMoves ms).blk = s.blk := rfl
@[simp] theorem State.withMoves_ibuf (ms : List HostMove) (s : State) : (s.withMoves ms).ibuf = s.ibuf := rfl
@[simp] theorem State.withMoves_obuf (ms : List HostMove) (s : State) : (s.withMoves ms).obuf = s.obuf := rfl
@[simp] theorem State.withMoves_err (ms : List HostMove) (s : State) : (s.withMoves ms).err = s.err := rfl
@[simp] theorem State.withMoves_draws (ms : List HostMove) (s : State) : (s.withMoves ms).draws = s.draws := rfl
@[simp] theorem State.withMoves_reads (ms : List HostMove) (s : State) : (s.withMoves ms).reads = s.reads := rfl
@[simp] theorem State.withMoves_inputs (ms : List HostMove) (s : State) :
    (s.withMoves ms).inputs = ms.map Input.move ++ s.inputs := rfl

/-! ### Runs of a script -/

@[simp] theorem scriptRuns_nil (s t : State) : scriptRuns [] s t ↔ t = s := Iff.rfl

theorem scriptRuns_cons (l : ScriptLine) (ls : List ScriptLine) (s t : State) :
    scriptRuns (l :: ls) s t ↔
      stated l s ∧ ∃ u, runSteps (expand l s).length (s.withMoves (expand l s)) = .next u ∧ scriptRuns ls u t := Iff.rfl

/-- A script in two parts runs as the first and then the second. -/
theorem scriptRuns_append (ks ls : List ScriptLine) (s t : State) :
    scriptRuns (ks ++ ls) s t ↔ ∃ u, scriptRuns ks s u ∧ scriptRuns ls u t := by
  induction ks generalizing s with
  | nil => simp
  | cons k ks ih =>
    simp only [List.cons_append, scriptRuns_cons, ih]
    constructor
    · rintro ⟨hs, v, hv, u, hu, ht⟩
      exact ⟨u, ⟨hs, v, hv, hu⟩, ht⟩
    · rintro ⟨u, ⟨hs, v, hv, hu⟩, ht⟩
      exact ⟨hs, v, hv, u, hu, ht⟩

/-- A script has at most one run from a state. -/
theorem scriptRuns_unique (ls : List ScriptLine) (s t t' : State) (h : scriptRuns ls s t) (h' : scriptRuns ls s t') :
    t = t' := by
  induction ls generalizing s with
  | nil => exact h.trans h'.symm
  | cons l ls ih =>
    obtain ⟨-, u, hu, h⟩ := h
    obtain ⟨-, u', hu', h'⟩ := h'
    rw [hu] at hu'
    cases hu'
    exact ih u h h'

/-- What a script of one line needs to run: its statement, and the run of its moves. -/
theorem scriptRuns_line (l : ScriptLine) (s t : State) (hs : stated l s)
    (h : runSteps (expand l s).length (s.withMoves (expand l s)) = .next t) (ls : List ScriptLine) (u : State) :
    scriptRuns (l :: ls) s u ↔ scriptRuns ls t u := by
  rw [scriptRuns_cons, h]
  constructor
  · rintro ⟨-, v, hv, ht⟩
    cases hv
    exact ht
  · exact fun ht => ⟨hs, t, rfl, ht⟩

@[simp] theorem State.withMoves_nil (s : State) : s.withMoves [] = s := rfl

/-- A CMD line is the command. -/
theorem scriptRuns_cmd (i : Instr) (s t : State) (h : exec i s = .next t) (ls : List ScriptLine) (u : State) :
    scriptRuns (.cmd i :: ls) s u ↔ scriptRuns ls t u := by
  refine scriptRuns_line (.cmd i) s t trivial ?_ ls u
  have : step (s.withMoves (expand (.cmd i) s)) = .next t := by
    rw [step_of_inputs _ _ s.inputs rfl]
    show issueCommand (encode i) s = _
    rw [issueCommand, decode_encode]
    exact h
  exact runSteps_succ 0 _ t this

/-! ### Runs of moves of one kind -/

/-- Reads return their bytes in order and change nothing else. -/
theorem runSteps_reads (as : List Addr) (bs : List Byte) (s : State) (rest : List Input)
    (h : s.inputs = as.map (fun a => .move (.read a)) ++ rest)
    (hb : as.map (fun a => readByte a s) = bs.map .ok) (n : Nat) :
    runSteps (as.length + n) s = runSteps n { s with inputs := rest, reads := s.reads ++ bs } := by
  induction as generalizing s bs with
  | nil =>
    have : bs = [] := by
      cases bs with
      | nil => rfl
      | cons b bs => simp at hb
    subst this
    simp at h
    subst h
    simp
  | cons a as ih =>
    cases bs with
    | nil => simp at hb
    | cons b bs =>
      simp only [List.map_cons, List.cons.injEq] at hb
      rw [show (a :: as).length + n = (as.length + n) + 1 by simp; omega,
        runSteps_succ _ _ _ (step_of_read s a b _ (by simpa using h) hb.1),
        ih bs { s with inputs := _, reads := _ } rfl hb.2]
      simp

/-- IDATA writes that fit append their bytes in order and change nothing else. -/
theorem runSteps_pushes (bs : List Byte) (s : State) (rest : List Input)
    (h : s.inputs = (pushMoves bs).map .move ++ rest) (hl : s.ibuf.length + bs.length ≤ Config.params.bufcap) (n : Nat) :
    runSteps (bs.length + n) s = runSteps n { s with inputs := rest, ibuf := s.ibuf ++ bs } := by
  induction bs generalizing s with
  | nil =>
    simp [pushMoves] at h
    subst h
    simp
  | cons b bs ih =>
    simp [pushMoves] at h hl
    have first : step s = .next { s with inputs := (pushMoves bs).map .move ++ rest, ibuf := s.ibuf ++ [b] } := by
      rw [step_of_inputs _ _ _ h]
      show pushByte _ _ _ = _
      refine (if_pos (show s.ibuf.length < Config.params.bufcap by omega)).trans ?_
      simp [State.setIbuf, pushMoves]
    rw [show (b :: bs).length + n = (bs.length + n) + 1 by simp; omega, runSteps_succ _ _ _ first,
      ih _ (by simp) (by simp; omega)]
    simp

/-- BLK writes at the last `k` indices put those bytes there; with the others right already, the block is `b`. -/
theorem runSteps_setblk (b : Block) (k : Nat) (hk : k ≤ 16) (s : State) (rest : List Input) (n : Nat)
    (h : s.inputs = ((List.range' (16 - k) k).map fun i =>
      Input.move (.write (BitVec.ofNat 32 (0x10 + i)) (b.toList.getD i 0))) ++ rest)
    (hb : ∀ i (_ : i < 16), i < 16 - k → s.blk[i] = b[i]) :
    runSteps (k + n) s = runSteps n { s with inputs := rest, blk := b } := by
  induction k generalizing s with
  | zero =>
    have : s.blk = b := Vector.ext fun i hi => hb i hi (by omega)
    simp at h
    subst h
    subst this
    simp
  | succ k ih =>
    rw [List.range'_succ] at h
    simp only [List.map_cons, List.cons_append] at h
    have first := step_of_inputs _ _ _ h
    simp only [takeInput, hostWrite, region_blk ⟨16 - (k + 1), by omega⟩] at first
    rw [show k + 1 + n = (k + n) + 1 by omega, runSteps_succ _ _ _ first, ih (by omega)]
    · rfl
    · simp only [State.setBlk_inputs, show 16 - (k + 1) + 1 = 16 - k by omega]
    · intro i hi h2
      simp only [State.setBlk_blk, Vector.getElem_set]
      split
      · rename_i e
        subst e
        simp only [List.getD_eq_getElem?_getD, Vector.getElem?_toList, Vector.getElem?_eq_getElem hi, Option.getD_some]
      · exact hb i hi (by omega)

end Sys2Proof.Machine
end

