-- ==== Sys2Proof/Tests/Slice0.lean ====
section
/-! SUPPORT. The model's own tests. Every expected value is taken from spec/95_test_vectors.md or from the worked example of
the rule named; the configurations are those of its section 2. -/

namespace Sys2Proof.Tests

open Sys2Proof Sys2Proof.Machine

/-! ### Configurations and small states -/

/-- KC of the two toy configurations (95 section 2). -/
def toyKC (i : Fin 16) : Word := BitVec.ofNat 32 (i.val * 0x10000001)

/-- The oracle of the vectors: `DRAWS A0 A1 .. AF` from position 0. -/
def drawA0 (n : Nat) : Byte := BitVec.ofNat 8 (0xA0 + n)

/-- CFG_IDENT: G is the identity on Words (95 section 2). -/
def cfgIdent : Params where
  SS j b := b.setWidth 32 <<< (8 * (3 - j.val))
  KC := toyKC
  bufcap := 64
  draw := drawA0

/-- CFG_TOYB: four different tables (95 section 2). -/
def cfgToyB : Params where
  SS j b := be32 b (b + BitVec.ofNat 8 j.val) (b + BitVec.ofNat 8 (2 * j.val + 1)) (b ^^^ 0xFF)
  KC := toyKC
  bufcap := 64
  draw := drawA0

/-- CFG_PUB (95 section 2). -/
def cfgPub : Params := publishedParams 64 drawA0

/-- The key, plaintext and so on `00 01 .. 0F` of the vectors. -/
def block00 : Block := #v[0x00, 0x01, 0x02, 0x03, 0x04, 0x05, 0x06, 0x07, 0x08, 0x09, 0x0A, 0x0B, 0x0C, 0x0D, 0x0E, 0x0F]

/-- The IV `A0 A1 .. AF` of the vectors. -/
def ivA0 : Block := #v[0xA0, 0xA1, 0xA2, 0xA3, 0xA4, 0xA5, 0xA6, 0xA7, 0xA8, 0xA9, 0xAA, 0xAB, 0xAC, 0xAD, 0xAE, 0xAF]

/-- The reset state of a configuration with a key loaded, a block in BLK, an input and an old output. -/
def loaded (c : Params) (key blk : Block) (ibuf : List Byte) : State :=
  { (State.resetWith c).replaceKey c key with blk := blk, ibuf := ibuf, obuf := [0x77], err := 3 }

/-- The machine's reset state with an input and an old output. -/
def start (ibuf : List Byte) : State := { State.reset with ibuf := ibuf, obuf := [0x77], err := 3 }

/-! ### WellFormed: each check refuses an ill-formed term -/

theorem test_wf_params_small : Params.wf { cfgIdent with bufcap := 31 } = false := by decide
theorem test_wf_params_large : Params.wf { cfgIdent with bufcap := 2 ^ 30 - 31 } = false := by decide
theorem test_wf_params_ok : cfgIdent.wf = true := by decide
theorem test_wf_write_status : (HostMove.write 0x01 0).wf = false := by decide
theorem test_wf_write_olen : (HostMove.write 0x0B 0).wf = false := by decide
theorem test_wf_write_window : (HostMove.write 0x40000000 0).wf = false := by decide
theorem test_wf_read_cmd : (HostMove.read 0x00).wf = false := by decide
theorem test_wf_read_idata : (HostMove.read 0x02).wf = false := by decide
theorem test_wf_read_unmapped : (HostMove.read 0x03).wf = false ∧ (HostMove.read 0x20).wf = false := by decide
theorem test_wf_read_past_window : (HostMove.read 0x80000000).wf = false := by decide
theorem test_wf_commands : Instr.wf .keyclr = true ∧ Instr.wf .iclr = true := by decide

/-! ### Decode: words written out from R81 -/

theorem test_decode_key : decode 0b00000001 = .ok .keyclr ∧ decode 0b00000010 = .ok .keyset ∧
    decode 0b00000011 = .ok .keygen ∧ decode 0b00000100 = .ok .keyget := by decide
theorem test_decode_block : decode 0b00010000 = .ok .encb ∧ decode 0b00010001 = .ok .decb := by decide
theorem test_decode_padding : decode 0b00100000 = .ok .padadd ∧ decode 0b00100001 = .ok .padrem := by decide
theorem test_decode_cbc : decode 0b00110000 = .ok .ivgen ∧ decode 0b01000000 = .ok .cbcenc ∧
    decode 0b01000001 = .ok .cbcdec ∧ decode 0b01010000 = .ok .iclr := by decide
theorem test_decode_illegal : decode 0x00 = .error (.illegalOpcode 0x00) ∧ decode 0x7F = .error (.illegalOpcode 0x7F) ∧
    decode 0x12 = .error (.illegalOpcode 0x12) ∧ decode 0xFF = .error (.illegalOpcode 0xFF) := by decide
/-- 244 of the 256 opcodes are illegal (D9). -/
theorem test_decode_count : ((List.range 256).filter fun w => decodeTableWord 8 w == none).length = 244 := by
  decide +kernel
theorem test_decodeTableWord : decodeTableWord 8 0x41 = some .cbcdec ∧ decodeTableWord 8 0x141 = none := by decide

/-! ### The pure functions (95 sections 3 to 7) -/

theorem test_rotl_pair : rotl8 (pair 0x00010203 0x04050607) = pair 0x01020304 0x05060700 := by decide
theorem test_rotr_pair : rotr8 (pair 0x08090A0B 0x0C0D0E0F) = pair 0x0F08090A 0x0B0C0D0E := by decide
theorem test_G_ident : G cfgIdent 0x12345678 = 0x12345678 := by decide
theorem test_G_toyb_pairing : G cfgToyB 0x000000FF = 0xFF0101FF ∧ G cfgToyB 0xFF000000 = 0xFFFF01FF := by decide
theorem test_G_pub : G cfgPub 0x12345678 = 0xC8787411 ∧ G cfgPub 0xFF000000 = 0x8B2A8B19 := by decide +kernel
theorem test_F_ident_carry : F cfgIdent 0x11111111 0x22222222 0x33333333 0x44444444 = 0x11111110 := by decide
theorem test_F_toyb : F cfgToyB 0x7C8F8C7E 0xC737A22C 0x08090A0B 0x0C0D0E0F = 0xABB1DDAB := by decide
theorem test_schedule_ident : (keySchedule cfgIdent block00).toList =
    [0x080A0C0E, 0xF7F7F7F8, 0xF90B0D0E, 0x08F8F8F2, 0xF00A0C0C, 0x19F9F9F4, 0xE10B0D0C, 0x2AFAF2F6,
     0xD0120C0A, 0x3BFBF3F8, 0xC1130D0A, 0x4CF4F4FA, 0xB0121408, 0x5DF5F5FC, 0xA1131508, 0x66F6F6FE,
     0x9012140E, 0x77F7F800, 0x81131506, 0x88F8F902, 0x70121404, 0x91F9FA04, 0x61130D04, 0xA2FAFB06,
     0x50120C02, 0xB3F3FC08, 0x410B0D02, 0xC4F4FD0A, 0x300A0C00, 0xD5F5F60C, 0x190B0D00, 0xE6F6F70E] := by
  decide +kernel
/-- The CFG_PUB schedule of the zero key, first and last words. -/
theorem test_schedule_pub : ((keySchedule cfgPub zeroBlock).toList.take 4 = [0x5BAE43A2, 0xFBB66158, 0x8CEF3D30, 0x2AE65725]) ∧
    (keySchedule cfgPub zeroBlock)[31] = 0x3AE9CEA1 := by decide +kernel
/-- Vector B5 under CFG_TOYB. -/
theorem test_encrypt_toyb : encryptBlock cfgToyB (keySchedule cfgToyB
      #v[0x47, 0x06, 0x48, 0x08, 0x51, 0xE6, 0x1B, 0xE8, 0x5D, 0x74, 0xBF, 0xB3, 0xFD, 0x95, 0x61, 0x85])
      #v[0x83, 0xA2, 0xF8, 0xA2, 0x88, 0x64, 0x1F, 0xB9, 0xA4, 0xE9, 0xA5, 0xCC, 0x2F, 0x13, 0x1C, 0x7D] =
    #v[0xDE, 0x30, 0x82, 0xB6, 0x55, 0xCA, 0x3B, 0x07, 0x42, 0x48, 0x42, 0x6F, 0x49, 0x8E, 0xA5, 0x74] := by decide +kernel
/-- Vector B4 under CFG_PUB. -/
theorem test_encrypt_pub : encryptBlock cfgPub (keySchedule cfgPub block00) block00 =
    #v[0xB6, 0xBA, 0xDA, 0x15, 0xB2, 0xBE, 0xDE, 0x11, 0x08, 0x1C, 0x9E, 0xFE, 0x0C, 0x18, 0x9A, 0xFA] := by decide +kernel
/-- DecryptBlock(0^16) under CFG_TOYB, key 00 01 .. 0F. -/
theorem test_decrypt_toyb : decryptBlock cfgToyB (keySchedule cfgToyB block00) zeroBlock =
    #v[0xE8, 0x57, 0xE9, 0xE8, 0xE8, 0x57, 0xE9, 0xE8, 0x68, 0xCD, 0xD5, 0x67, 0x68, 0xCD, 0xD5, 0x67] := by decide +kernel
/-- Vectors V2, V3, V8, V15, V17 of the validator. -/
theorem test_removePadding : removePadding [0x01] = .ok [] ∧ removePadding [0x02] = .error .padding ∧
    removePadding [0xAA, 0x02, 0x02] = .ok [0xAA] ∧ removePadding [5, 5, 5, 5] = .error .padding ∧
    removePadding [1, 2, 3, 4, 5, 6, 7, 8, 9, 10, 11, 12, 13, 14, 15, 16] = .error .padding := by decide
/-- Vector E3 under CFG_TOYB: two blocks chained. -/
theorem test_cbc_chain_toyb : cbcEncrypt cfgToyB (keySchedule cfgToyB block00)
      [0x30, 0x31, 0x32, 0x33, 0x34, 0x35, 0x36, 0x37, 0x38, 0x39, 0x3A, 0x3B, 0x3C, 0x3D, 0x3E, 0x3F] ivA0 = ivA0.toList ++
    [0x7D, 0xF3, 0xFF, 0x7D, 0x7D, 0xF3, 0xFF, 0x7D, 0xE4, 0xC3, 0x76, 0xE4, 0xE4, 0xC3, 0x76, 0xE4,
     0x42, 0x01, 0xD1, 0x46, 0x42, 0x01, 0xD1, 0x46, 0xAC, 0xB3, 0x61, 0xA2, 0xAC, 0xB3, 0x61, 0xA2] := by decide +kernel

/-! ### The commands: at most two tests each -/

/-- R100: the key is zero and STATUS reads 0x00. -/
theorem test_keyclr : statusByte (keyclr cfgIdent (loaded cfgIdent block00 block00 [1])) = 0x00 := by decide +kernel
/-- P4: with 17 bytes in IBUF the first 16 are the key. -/
theorem test_keyset : (keyset cfgIdent (loaded cfgIdent zeroBlock block00 (block00.toList ++ [0x77]))).key = block00 ∧
    statusByte (keyset cfgIdent (loaded cfgIdent zeroBlock block00 (block00.toList ++ [0x77]))) = 0x80 := by decide +kernel
/-- P4: 15 bytes are a KeyLoadError, the key stays and so does OBUF (STATUS 0x81). -/
theorem test_keyset_short : statusByte (keyset cfgIdent (loaded cfgIdent block00 block00 (block00.toList.take 15))) = 0x81 ∧
    (keyset cfgIdent (loaded cfgIdent block00 block00 (block00.toList.take 15))).obuf = [0x77] := by decide +kernel
/-- R103: the draws in index order. -/
theorem test_keygen : (keygen cfgIdent (loaded cfgIdent zeroBlock block00 [])).key = ivA0 ∧
    (keygen cfgIdent (loaded cfgIdent zeroBlock block00 [])).draws = 16 := by decide +kernel
/-- R104. -/
theorem test_keyget : (keyget (loaded cfgIdent block00 zeroBlock [])).obuf = block00.toList := by decide +kernel
/-- Vector B4 under CFG_IDENT. -/
theorem test_encb : (encb cfgIdent (loaded cfgIdent block00 block00 [])).blk =
    #v[0x48, 0xEC, 0x4A, 0x3B, 0x4C, 0xE8, 0x4E, 0x3F, 0x05, 0xED, 0x6C, 0x63, 0x01, 0xE9, 0x68, 0x67] := by decide +kernel
/-- Vector B5 under CFG_IDENT, backwards. -/
theorem test_decb : (decb cfgIdent (loaded cfgIdent
      #v[0x47, 0x06, 0x48, 0x08, 0x51, 0xE6, 0x1B, 0xE8, 0x5D, 0x74, 0xBF, 0xB3, 0xFD, 0x95, 0x61, 0x85]
      #v[0x33, 0xB6, 0x76, 0x6E, 0xB8, 0x4C, 0xCF, 0xDF, 0x5D, 0x18, 0x87, 0x64, 0x56, 0xDE, 0x60, 0x7F] [])).blk =
    #v[0x83, 0xA2, 0xF8, 0xA2, 0x88, 0x64, 0x1F, 0xB9, 0xA4, 0xE9, 0xA5, 0xCC, 0x2F, 0x13, 0x1C, 0x7D] := by decide +kernel
/-- Vectors A1 and A2. -/
theorem test_padadd : (padadd (start [0x41, 0x42, 0x43])).obuf = [0x41, 0x42, 0x43] ++ List.replicate 13 0x0D ∧
    (padadd (start [])).obuf = List.replicate 16 0x10 := by decide +kernel
/-- Vectors V12 and V13. -/
theorem test_padrem : (padrem (start ([0x41, 0x42, 0x43] ++ List.replicate 13 0x0D))).obuf = [0x41, 0x42, 0x43] ∧
    (padrem (start ([0x41, 0x42, 0x43] ++ List.replicate 12 0x0D ++ [0x0C]))).err = 4 := by decide +kernel
/-- Vectors V1 and V2 differ in ERR only, and the failure empties OBUF. -/
theorem test_padrem_empty : (padrem (start [])).err = 4 ∧ (padrem (start [])).obuf = [] ∧ (padrem (start [1])).err = 0 := by
  decide +kernel
/-- R160's example. -/
theorem test_ivgen : (ivgen cfgIdent (loaded cfgIdent block00 zeroBlock [])).obuf = ivA0.toList := by decide +kernel
/-- Vector E1 under CFG_IDENT. -/
theorem test_cbcenc : (cbcenc cfgIdent (loaded cfgIdent block00 zeroBlock [0x41, 0x42, 0x43])).obuf = ivA0.toList ++
    [0xEF, 0x82, 0xC3, 0x46, 0xEB, 0x86, 0xC7, 0x42, 0x26, 0x9F, 0x9A, 0x3E, 0x6E, 0xD4, 0xD0, 0x3A] := by decide +kernel
/-- Vector E1z under CFG_PUB: the zero key. -/
theorem test_cbcenc_zero_key : (cbcenc cfgPub (loaded cfgPub zeroBlock zeroBlock [0x41, 0x42, 0x43])).obuf = ivA0.toList ++
    [0x1B, 0x66, 0x1E, 0x87, 0x1F, 0x62, 0x1A, 0x83, 0x0F, 0x66, 0x8F, 0x46, 0x47, 0x2D, 0xC5, 0x42] := by decide +kernel
/-- Vector X15: IV[15] XOR 0C surfaces twelve padding bytes. -/
theorem test_cbcdec : (cbcdec cfgIdent (loaded cfgIdent block00 zeroBlock (ivA0.toList.take 15 ++ [0xA3] ++
      [0xEF, 0x82, 0xC3, 0x46, 0xEB, 0x86, 0xC7, 0x42, 0x26, 0x9F, 0x9A, 0x3E, 0x6E, 0xD4, 0xD0, 0x3A]))).obuf =
    [0x41, 0x42, 0x43] ++ List.replicate 12 0x0D := by decide +kernel
/-- Vectors X4, X7 and X10. -/
theorem test_cbcdec_errors : (cbcdec cfgIdent (loaded cfgIdent block00 zeroBlock (List.replicate 20 0))).err = 2 ∧
    (cbcdec cfgIdent (loaded cfgIdent block00 zeroBlock (List.replicate 35 0))).err = 3 ∧
    (cbcdec cfgIdent (loaded cfgIdent block00 zeroBlock (List.replicate 32 0))).err = 4 := by decide +kernel
/-- R168. -/
theorem test_iclr : (iclr (start [1, 2])).ibuf = [] ∧ (iclr (start [1, 2])).obuf = [0x77] := by decide +kernel

/-! ### The host port -/

/-- P3: opcode 0x7F gives ERR 15 and OBUF is kept. -/
theorem test_illegal_opcode : issueCommand 0x7F (start [5]) = .next { start [5] with err := 15 } := by rfl
/-- P3: ILEN = 35 reads 00 00 00 23. -/
theorem test_read_ilen : readByte 0x07 (start (List.replicate 35 0)) = .ok 0x23 ∧
    readByte 0x04 (start (List.replicate 35 0)) = .ok 0x00 := by decide +kernel
theorem test_read_status : readByte 0x01 (start []) = .ok 0x03 := by decide +kernel
theorem test_window : readByte 0x40000000 (start []) = .ok 0x77 ∧
    readByte 0x40000001 (start []) = .error (.windowBeyondOlen 0x40000001) := by decide +kernel
theorem test_write_blk : hostWrite 0x1F 0xAB (start []) = .next { start [] with blk := State.reset.blk.set 15 0xAB } := by rfl
theorem test_push_full : pushByte { cfgIdent with bufcap := 2 } 9 (start [1, 2]) = .refused .ibufFull := by rfl
theorem test_refused_moves : hostWrite 0x03 0 (start []) = .refused (.unmapped 0x03) ∧
    hostRead 0x02 (start []) = .refused (.readOfWriteOnly 0x02) ∧
    hostWrite 0x01 0 (start []) = .refused (.writeOfReadOnly 0x01) := ⟨rfl, rfl, rfl⟩
theorem test_step_from_reset : step (State.reset.withFetchWord 8 0x50) = exec .iclr State.reset := by rfl
theorem test_step_reset_event : step { start [1] with inputs := [.reset], draws := 5 } = .next { State.reset with draws := 5 } := by
  rfl
/-- R86: LOADI is ICLR, then one IDATA write a byte. -/
theorem test_loadi : expand (.loadi [7, 8]) (start []) = [.write 0 0x50, .write 2 7, .write 2 8] := by decide
/-- R86: GETOUT reads OLEN bytes of the window; here OLEN is 1. -/
theorem test_getout : expand .getout (start []) = [.read 8, .read 9, .read 10, .read 11, .read 0x40000000] := by decide

/-- R85's `RD -> byte`, and a DRAWS line with no answer from the oracle of its state. -/
theorem test_stated_rd : stated (.rd 0x40000000 (some 0x77)) (start []) ∧ ¬ stated (.rd 0x01 (some 0x00)) (start []) := by
  constructor
  · exact test_window.1
  · intro (h : readByte 0x01 (start []) = .ok 0x00)
    rw [test_read_status] at h
    cases h
theorem test_stated_draws : ¬ stated (.draws (((start []).nextDraws Config.params).map (· + 1))) (start []) := by
  intro h
  have := congrArg (fun b : Block => b[0]) h
  simp at this

/-! ### Witnesses: for each statement with hypotheses, concrete states and operands that meet them, at the ends of their ranges -/

/-- `start` with one input pending. -/
def pending (x : Input) (ibuf : List Byte) : State := { start ibuf with inputs := [x] }

/-- The host is about to write `op` to CMD. -/
def issuing (op : Byte) (ibuf : List Byte) : State := pending (.move (.write 0 op)) ibuf

theorem start_inv : (start [1]).Inv :=
  ⟨rfl, Nat.le_trans (by decide) bufcap_lower, Nat.le_trans (by decide) (Nat.le_add_left 32 _), .inr (.inr (.inr (.inl rfl)))⟩

/-- IllegalOpcodeSetsErrFifteenOnly: both ends of every listed range, and the opcodes beside them. -/
theorem witness_illegal_ranges :
    (∀ n ∈ [0x00, 0x05, 0x0F, 0x12, 0x1F, 0x22, 0x2F, 0x31, 0x3F, 0x42, 0x4F, 0x51, 0xFF],
      n = 0x00 ∨ (0x05 ≤ n ∧ n ≤ 0x0F) ∨ (0x12 ≤ n ∧ n ≤ 0x1F) ∨ (0x22 ≤ n ∧ n ≤ 0x2F) ∨
        (0x31 ≤ n ∧ n ≤ 0x3F) ∨ (0x42 ≤ n ∧ n ≤ 0x4F) ∨ (0x51 ≤ n ∧ n ≤ 0xFF)) ∧
    (∀ n ∈ [0x01, 0x04, 0x10, 0x11, 0x20, 0x21, 0x30, 0x40, 0x41, 0x50],
      ¬ (n = 0x00 ∨ (0x05 ≤ n ∧ n ≤ 0x0F) ∨ (0x12 ≤ n ∧ n ≤ 0x1F) ∨ (0x22 ≤ n ∧ n ≤ 0x2F) ∨
        (0x31 ≤ n ∧ n ≤ 0x3F) ∨ (0x42 ≤ n ∧ n ≤ 0x4F) ∨ (0x51 ≤ n ∧ n ≤ 0xFF))) ∧
    ∀ b, (issuing b []).inputs = [.move (.write 0 b)] := ⟨by decide, by decide, fun _ => rfl⟩

/-- StepRunsTheCommandWrittenToCmd. -/
theorem witness_step_runs : (issuing 0x41 []).inputs = [.move (.write 0 0x41)] ∧ decode 0x41 = .ok .cbcdec := ⟨rfl, rfl⟩

/-- KeysetLoadsFirstSixteenBytes and KeyReplacementRegeneratesWholeSchedule: 15 and 16 bytes. -/
theorem witness_keyset_lengths : (start (List.replicate 15 1)).ibuf.length < 16 ∧ 16 ≤ (start (List.replicate 16 1)).ibuf.length := by
  decide

/-- RoundFunctionMixesThreeSubstitutions: tables under which G is the identity. -/
theorem witness_G_identity (x : Word) : G cfgIdent x = x := by
  apply BitVec.eq_of_getLsbD_eq
  intro i hi
  interval_cases i <;> simp [G, cfgIdent]

/-- BlockTransformsRunSixteenRounds: zero tables, a zero block and sequences that stay zero, for both orders. -/
theorem witness_feistel (rk : RoundKeys) : (0 : Word) = wordAt zeroBlock 0 ∧ (0 : Word) = wordAt zeroBlock 1 ∧
    (0 : Word) = wordAt zeroBlock 2 ∧ (0 : Word) = wordAt zeroBlock 3 ∧
    (∀ k : Fin 16, (0 : Word) = 0 ^^^ F { cfgIdent with SS := fun _ _ => 0 } (rk[2 * k.val]'(by omega))
      (rk[2 * k.val + 1]'(by omega)) 0 0) ∧
    (∀ i : Fin 16, id i = i) ∧ ∀ i : Fin 16, (Fin.rev i).val = 15 - i.val := by
  refine ⟨by decide, by decide, by decide, by decide, fun k => by simp [F, G], fun _ => rfl, by decide⟩

/-- RemovePaddingFailsOnExactlyFiveConditions: one buffer for each condition. -/
theorem witness_bad_paddings : ([0x00] : List Byte).getLast? = some 0 ∧
    (List.replicate 17 (0x11 : Byte)).getLast? = some 0x11 ∧ 16 < (0x11 : Byte).toNat ∧
    ([0x02] : List Byte).getLast? = some 0x02 ∧ [(0x02 : Byte)].length < (0x02 : Byte).toNat ∧
    ([0x03, 0x02] : List Byte).getLast? = some 0x02 ∧ ([0x03, 0x02] : List Byte)[0]? ≠ some 0x02 := by decide

/-- RemovePaddingFailsOnExactlyFiveConditions and PadremStripsOrReportsPaddingError: p = 1, p = 16, and a failure. -/
theorem witness_padrem : removePadding (start [0x01]).ibuf = .ok [] ∧
    removePadding (start (List.replicate 16 0x10)).ibuf = .ok [] ∧ removePadding (start []).ibuf = .error .padding := by decide

/-- EnvelopeBlocksChainFromIv: the first and the last block. -/
theorem witness_envelope_blocks : 16 * 0 < (addPadding []).length ∧ 16 * 1 < (addPadding block00.toList).length := by decide

/-- EnvelopeLengthLaw: n = 15 and n = 16. -/
theorem witness_envelope_lengths : (block00.toList.take 15).length % 16 ≠ 0 ∧ block00.toList.length % 16 = 0 := by decide

/-- CbcDecryptChecksLengthThenUnchains and CbcdecOutputsPlaintextOrOneOfThreeErrors: lengths 31, 33, 47, 32 and 48. -/
theorem witness_cbcdec_lengths : (start (List.replicate 31 0)).ibuf.length < 32 ∧
    (∀ n ∈ [33, 47], 32 ≤ n ∧ (n - 16) % 16 ≠ 0 ∧ (start (List.replicate n 0)).ibuf.length = n) ∧
    ∀ n ∈ [32, 48], 32 ≤ n ∧ (n - 16) % 16 = 0 ∧ (start (List.replicate n 0)).ibuf.length = n := by decide +kernel

/-- The machine's reset state with a one-block envelope in IBUF whose assembled plaintext is `p`. -/
def envelopeOf (p : Block) : State :=
  start ((xor16 (decryptBlock Config.params State.reset.rk zeroBlock) p).toList ++ zeroBlock.toList)

theorem envelopeOf_plaintext (p : Block) :
    cbcDecrypt Config.params (envelopeOf p).rk (envelopeOf p).ibuf = removePadding p.toList := by
  have len : (envelopeOf p).ibuf.length = 32 := by simp [envelopeOf, start]
  rw [cbcDecrypt, if_neg (by omega), if_neg (by omega)]
  refine congrArg removePadding ((assembledPlaintext_one_block ..).trans (congrArg Vector.toList ?_))
  rw [show (envelopeOf p).rk = State.reset.rk from rfl, xor16_comm, xor16_comm _ p, xor16_xor16_cancel]

/-- CbcdecOutputsPlaintextOrOneOfThreeErrors: an envelope with a plaintext and one with a padding error. -/
theorem witness_cbcdec : (∃ r, cbcDecrypt Config.params (envelopeOf (Vector.replicate 16 16)).rk
      (envelopeOf (Vector.replicate 16 16)).ibuf = .ok r) ∧
    ∃ e, cbcDecrypt Config.params (envelopeOf zeroBlock).rk (envelopeOf zeroBlock).ibuf = .error e := by
  rw [envelopeOf_plaintext, envelopeOf_plaintext]
  exact ⟨⟨[], by decide⟩, ⟨.padding, by decide⟩⟩

/-- CbcRoundTrip, HostScriptRoundTrip, PadaddOutputsPaddedInput, OutputsFitTheOutputBuffer: an empty IBUF, and the fullest. -/
theorem witness_fitting_input : (start []).ibuf.length + 32 ≤ Config.params.bufcap ∧
    (start (List.replicate (Config.params.bufcap - 32) 0)).ibuf.length + 32 ≤ Config.params.bufcap := by
  have := bufcap_lower
  simp [start]
  omega

/-- IvTamperingFlipsOneByteOfFirstBlock: the first and the last IV byte of the shortest envelope. -/
theorem witness_iv_tampering : 32 ≤ (List.replicate 32 (7 : Byte)).length ∧
    (List.replicate 32 (7 : Byte))[0]? = some 7 ∧ (List.replicate 32 (7 : Byte))[15]? = some 7 := by decide

/-- CommandsWriteOnlyTheirColumn: a command for each clause. -/
theorem witness_columns : ¬ replacesKey .encb ∧ ¬ producesOutput .iclr ∧ drawsBytes .keygen ∧ ¬ drawsBytes .keyclr ∧
    ∀ i, ∃ t, exec i (start [1]) = .next t := by
  refine ⟨by simp [replacesKey], by simp [producesOutput], by simp [drawsBytes], by simp [drawsBytes], fun i => ?_⟩
  cases i <;> exact ⟨_, rfl⟩

/-- CommandsChangeOnlyTheirReadableBytes: the addresses beside each region that is left out. -/
theorem witness_readable_bytes :
    (∀ a ∈ [(0x0F : Addr), 0x20], ¬ (0x10 ≤ a.toNat ∧ a.toNat ≤ 0x1F)) ∧
    (∀ a ∈ [(0x03 : Addr), 0x08], ¬ (4 ≤ a.toNat ∧ a.toNat ≤ 7)) ∧
    (∀ a ∈ [(0x07 : Addr), 0x0C, 0x3FFFFFFF], ¬ (8 ≤ a.toNat ∧ a.toNat ≤ 0xB) ∧ a.toNat < 0x40000000) := by simp

/-- ErrorsArePrecise: an output-producing command that fails, and another. -/
theorem witness_errors : (∃ t, exec .padrem (start []) = .next t ∧ t.err = 4) ∧ producesOutput .padrem ∧
    (∃ t, exec .keyset (start []) = .next t ∧ t.err = 1) ∧ ¬ producesOutput .keyset :=
  ⟨⟨_, rfl, rfl⟩, by simp [producesOutput], ⟨_, rfl, rfl⟩, by simp [producesOutput]⟩

/-- ResultCodesFollowTheTable: each code is left by some command, and 0x00 is illegal. -/
theorem witness_result_codes : (∃ t, exec .cbcdec (start []) = .next t ∧ t.err = 2) ∧
    (∃ t, exec .cbcdec (start (List.replicate 33 0)) = .next t ∧ t.err = 3) ∧
    (∃ t, exec .cbcdec (envelopeOf zeroBlock) = .next t ∧ t.err = 4) ∧ ∀ i, decode 0x00 ≠ .ok i := by
  refine ⟨⟨_, rfl, rfl⟩, ⟨_, rfl, ?_⟩, ⟨_, rfl, ?_⟩, fun i h => by cases h⟩
  · rw [cbcdec, cbcDecrypt, if_neg (by decide), if_pos (by decide)]
    rfl
  rw [cbcdec, envelopeOf_plaintext]
  rfl

/-- LengthErrorsDependOnLengthAlone: two inputs of one length. -/
theorem witness_same_length : (start (List.replicate 31 0)).ibuf.length = (start (List.replicate 31 9)).ibuf.length ∧
    (∃ t, exec .cbcdec (start (List.replicate 31 0)) = .next t) ∧ ∃ t, exec .cbcdec (start (List.replicate 31 9)) = .next t :=
  ⟨rfl, ⟨_, rfl⟩, ⟨_, rfl⟩⟩

/-- OutputsFitTheOutputBuffer: an output-producing command that succeeds with a shorter output. -/
theorem witness_outputs : producesOutput .padrem ∧ ∃ t, exec .padrem (start [1]) = .next t ∧ t.err = 0 :=
  ⟨by simp [producesOutput], _, rfl, rfl⟩

/-- IdataWriteAppends: the last byte that fits, and a full IBUF. -/
theorem witness_idata : (pending (.move (.write 2 9)) []).inputs = [.move (.write 2 9)] ∧
    (start (List.replicate (Config.params.bufcap - 1) 0)).ibuf.length < Config.params.bufcap ∧
    (start (List.replicate Config.params.bufcap 0)).ibuf.length = Config.params.bufcap := by
  have := bufcap_lower
  refine ⟨rfl, ?_, ?_⟩ <;> simp [start]
  omega

/-- LengthRegistersReadBigEndian, BlkReadsAndWritesBytes, OutputWindowReadsObuf, HostReadsHaveNoSideEffect: the ends of each
region; index 0 of the window holds a byte and index 1 is at OLEN. -/
theorem witness_registers : (pending (.move (.read 0x04)) []).inputs = [.move (.read (BitVec.ofNat 32 (0x04 + (0 : Fin 4).val)))] ∧
    (pending (.move (.read 0x0B)) []).inputs = [.move (.read (BitVec.ofNat 32 (0x08 + (3 : Fin 4).val)))] ∧
    (pending (.move (.read 0x10)) []).inputs = [.move (.read (BitVec.ofNat 32 (0x10 + (0 : Fin 16).val)))] ∧
    (pending (.move (.write 0x1F 5)) []).inputs = [.move (.write (BitVec.ofNat 32 (0x10 + (15 : Fin 16).val)) 5)] ∧
    (pending (.move (.read 0x40000001)) []).inputs = [.move (.read (BitVec.ofNat 32 (0x40000000 + 1)))] ∧
    (start []).obuf[0]? = some 0x77 ∧ (start []).obuf.length ≤ 1 := ⟨rfl, rfl, rfl, rfl, rfl, rfl, by decide⟩

/-- MovesAreRefusedExactlyOutsideTheMap and HostReadsHaveNoSideEffect: legal moves at the ends of every region. -/
theorem witness_legal_moves : (∀ a ∈ [(0x00 : Addr), 0x02, 0x10, 0x1F], legalMove (start []) (.write a 5)) ∧
    ∀ a ∈ [(0x01 : Addr), 0x04, 0x0B, 0x10, 0x1F, 0x40000000], legalMove (start []) (.read a) := by
  have := bufcap_lower
  simp [legalMove, start]
  omega

/-- MovesAreRefusedExactlyOutsideTheMap: illegal moves beside every region, and a write to IDATA when IBUF is full. -/
theorem witness_illegal_moves : (∀ a ∈ [(0x01 : Addr), 0x03, 0x0F, 0x20, 0x40000000], ¬ legalMove (start []) (.write a 5)) ∧
    (∀ a ∈ [(0x00 : Addr), 0x02, 0x03, 0x0C, 0x0F, 0x20, 0x3FFFFFFF, 0x40000001, 0xFFFFFFFF],
      ¬ legalMove (start []) (.read a)) ∧
    ¬ legalMove (start (List.replicate Config.params.bufcap 0)) (.write 2 5) := by
  simp [legalMove, start]

/-- IdleCoreHoldsItsState and ResetEventRestoresResetValues. -/
theorem witness_idle_and_reset : (start []).inputs = [] ∧ (pending .reset []).inputs = [.reset] := ⟨rfl, rfl⟩

/-- StepKeepsInvariant and GetoutScriptReadsOutput: a state with the invariant, and its step under a command. -/
theorem witness_invariant : (issuing 0x50 [1]).Inv ∧ ∃ t, step (issuing 0x50 [1]) = .next t :=
  ⟨⟨start_inv.1, start_inv.2, start_inv.3, start_inv.4⟩, _, rfl⟩

/-- OnlyKeyCommandsChangeTheKey: a step that changes the key. -/
theorem witness_key_change : ∃ t, step (issuing 0x02 block00.toList) = .next t ∧ t.key ≠ (issuing 0x02 block00.toList).key :=
  ⟨_, rfl, by decide⟩

/-- OnlyCommandsWriteErr: a step that changes ERR. -/
theorem witness_err_change : ∃ t, step (issuing 0x7F []) = .next t ∧ t.err ≠ (issuing 0x7F []).err := ⟨_, rfl, by decide⟩

/-- LoadiScriptLoadsBuffer: the empty and the longest buffer. -/
theorem witness_loadi : ([] : List Byte).length ≤ Config.params.bufcap ∧
    (List.replicate Config.params.bufcap (0 : Byte)).length ≤ Config.params.bufcap := by simp

/-- DrawsScriptStatesTheOraclesAnswers: the answers themselves. -/
theorem witness_draws (i : Fin 16) : Config.params.draw ((start []).draws + i.val) = ((start []).nextDraws Config.params)[i] :=
  (bytes16_getElem (fun i => Config.params.draw ((start []).draws + i.val)) i).symm

end Sys2Proof.Tests
end

section
/-! Rules of the reset state and of STATUS, and the reset values (spec/10_state.md rules R22, R28, R36). -/

namespace Sys2Proof.Machine

/-! ### The reset state, field by field (R36) -/

@[simp] theorem State.reset_key : State.reset.key = zeroBlock := rfl
@[simp] theorem State.reset_rk : State.reset.rk = keySchedule Config.params zeroBlock := rfl
@[simp] theorem State.reset_blk : State.reset.blk = zeroBlock := rfl
@[simp] theorem State.reset_ibuf : State.reset.ibuf = [] := rfl
@[simp] theorem State.reset_obuf : State.reset.obuf = [] := rfl
@[simp] theorem State.reset_err : State.reset.err = 0 := rfl

/-! ### Reading STATUS (R22, R28) -/

theorem readByte_status (s : State) : readByte 1 s = .ok (statusByte s) := rfl

@[simp] theorem isValid_zeroBlock : isValid zeroBlock = false := by
  decide

/-- With ERR 0 the STATUS byte shows the key's validity alone. -/
theorem statusByte_of_err_zero (s : State) (h : s.err = 0) :
    statusByte s = if isValid s.key = true then 0x80 else 0x00 := by
  rw [statusByte, h, status_after_success]

/-- With ERR 0 and the zero key, STATUS reads 0x00: bit 7 is off because no key byte is set. -/
theorem readByte_status_of_zero_key (s : State) (hkey : s.key = zeroBlock) (herr : s.err = 0) :
    readByte 1 s = .ok 0x00 := by
  have hstatus : statusByte s = 0x00 := by simp [statusByte_of_err_zero s herr, hkey]
  rw [readByte_status, hstatus]

/-! ### The obligation -/

/-- Settles O51: the stored fields are R36's by the reset rules, and STATUS is 0x00 since the key is zero and ERR is 0. -/
theorem resetValuesOfAllState : Obligations.ResetValuesOfAllState := by
  unfold Obligations.ResetValuesOfAllState
  rw [← zeroBlock_eq_replicate]
  exact ⟨State.reset_key, State.reset_rk, State.reset_blk, State.reset_ibuf, State.reset_obuf, State.reset_err,
    readByte_status_of_zero_key State.reset State.reset_key State.reset_err⟩

end Sys2Proof.Machine
end

section
/-! Rules of the host port's registers: the length registers, BLK and the OBUF window (spec/20_memory.md rules R55, R56,
R57). -/

namespace Sys2Proof.Machine

/-! ### What each register's address reads -/

/-- The bytes of ILEN (R55). -/
theorem readByte_ilen (s : State) (k : Fin 4) :
    readByte (BitVec.ofNat 32 (0x04 + k.val)) s = .ok (BitVec.ofNat 8 (s.ibuf.length / 2 ^ (24 - 8 * k.val))) := by
  simp only [readByte, region_ilen, State.ilen, lengthByte_eq_ofNat_div]

/-- The bytes of OLEN (R55). -/
theorem readByte_olen (s : State) (k : Fin 4) :
    readByte (BitVec.ofNat 32 (0x08 + k.val)) s = .ok (BitVec.ofNat 8 (s.obuf.length / 2 ^ (24 - 8 * k.val))) := by
  simp only [readByte, region_olen, State.olen, lengthByte_eq_ofNat_div]

/-- The bytes of BLK (R56). -/
theorem readByte_blk (s : State) (i : Fin 16) : readByte (BitVec.ofNat 32 (0x10 + i.val)) s = .ok s.blk[i] := by
  simp only [readByte, region_blk]

/-- The OBUF window below OLEN (R57). The bound on `i` keeps the address within 32 bits. -/
theorem readByte_window (s : State) (i : Nat) (hi : i < 0xC0000000) (h : i < s.obuf.length) :
    readByte (BitVec.ofNat 32 (0x40000000 + i)) s = .ok s.obuf[i] := by
  simp only [readByte, region_window i hi, dif_pos h]

/-- The OBUF window from OLEN on (R57). -/
theorem readByte_window_beyond (s : State) (i : Nat) (hi : i < 0xC0000000) (h : s.obuf.length ≤ i) :
    readByte (BitVec.ofNat 32 (0x40000000 + i)) s = .error (.windowBeyondOlen (BitVec.ofNat 32 (0x40000000 + i))) := by
  simp only [readByte, region_window i hi, dif_neg (Nat.not_lt.2 h)]

/-! ### The steps of a refused read and of a write to BLK -/

/-- A read that returns no byte is refused: the counterpart of `step_of_read`. -/
theorem step_of_refused_read (s : State) (a : Addr) (r : Refusal) (rest : List Input)
    (h : s.inputs = .move (.read a) :: rest) (hr : readByte a s = .error r) : step s = .refused r := by
  have hr' : readByte a { s with inputs := rest } = .error r := hr
  rw [step_of_inputs s _ _ h, takeInput, hostRead, hr']

theorem step_of_blk_write (s : State) (i : Fin 16) (b : Byte) (rest : List Input)
    (h : s.inputs = .move (.write (BitVec.ofNat 32 (0x10 + i.val)) b) :: rest) :
    step s = .next { s with inputs := rest, blk := s.blk.set i.val b } := by
  rw [step_of_inputs s _ _ h, takeInput, hostWrite, region_blk]
  rfl

/-! ### The buffers' bounds and the top byte of a block -/

/-- R58's bound on IBUF, with BUFCAP at its largest. -/
theorem State.Inv.ibuf_length_le {s : State} (h : s.Inv) : s.ibuf.length ≤ 2 ^ 30 - 32 :=
  h.ibuf_bound.trans bufcap_upper

/-- R58's bound on OBUF, with BUFCAP at its largest. -/
theorem State.Inv.obuf_length_le {s : State} (h : s.Inv) : s.obuf.length ≤ 2 ^ 30 :=
  h.obuf_bound.trans (Nat.add_le_add_right bufcap_upper 32)

/-- Byte 0 of a block is the most significant byte of L0 (R13, R56). -/
theorem blockWords_L0_top_byte (b : Block) : (blockWords b).L0.extractLsb' 24 8 = b[0] :=
  (unbe32_be32 b[0] b[1] b[2] b[3]).1

/-! ### The obligations -/

/-- Settles O42: each read returns its register's byte, and the buffers' bounds are below 2^30 + 1. -/
theorem lengthRegistersReadBigEndian : Obligations.LengthRegistersReadBigEndian := by
  unfold Obligations.LengthRegistersReadBigEndian
  intro s k rest
  refine ⟨fun h => step_of_read s _ _ rest h (readByte_ilen s k), fun h => step_of_read s _ _ rest h (readByte_olen s k),
    fun hInv => ?_⟩
  have hi := hInv.ibuf_length_le
  have ho := hInv.obuf_length_le
  omega

/-- Settles O43: a read returns BLK[i], a write replaces BLK[i] alone, and BLK[0] is the top byte of L0. -/
theorem blkReadsAndWritesBytes : Obligations.BlkReadsAndWritesBytes := by
  unfold Obligations.BlkReadsAndWritesBytes
  intro s i b rest
  refine ⟨fun h => step_of_read s _ _ rest h (readByte_blk s i), fun h => ?_, blockWords_L0_top_byte s.blk⟩
  refine ⟨_, step_of_blk_write s i b rest h, rfl, ?_, fun j hj => ?_⟩
  · exact Vector.getElem_set_self i.isLt
  · exact Vector.getElem_set_ne i.isLt j.isLt fun e => hj (Fin.ext e.symm)

/-- Settles O44: below OLEN the window's read is OBUF's byte, from OLEN on it is refused, and OLEN is at most 2^30. -/
theorem outputWindowReadsObuf : Obligations.OutputWindowReadsObuf := by
  unfold Obligations.OutputWindowReadsObuf
  intro s i rest hi h
  refine ⟨fun b hb => ?_, fun hl => ?_, fun hInv => ?_⟩
  · obtain ⟨hl, rfl⟩ := List.getElem?_eq_some_iff.1 hb
    exact step_of_read s _ _ rest h (readByte_window s i hi hl)
  · exact ⟨_, step_of_refused_read s _ _ rest h (readByte_window_beyond s i hi hl)⟩
  · have ho := hInv.obuf_length_le
    omega

end Sys2Proof.Machine
end

section
/-! Rules of the opcode map and of the illegal opcodes (spec/30_encoding.md rules R81, R83, R84, R185). -/

namespace Sys2Proof.Machine

/-! ### Which bytes are commands -/

/-- A row of the opcode map compares the whole byte, and its pattern is its command's encoding (R81). -/
theorem opcodeTable_row_spec : ∀ r ∈ opcodeTable, r.mask = 0xFF ∧ encode r.instr = r.pattern := by decide

/-- The converse of `decode_encode`: a byte that decodes is the encoding of the command it decodes to (R84). -/
theorem encode_eq_of_decode_eq_ok {b : Byte} {i : Instr} (h : decode b = .ok i) : encode i = b := by
  unfold decode at h
  split at h
  next r hr =>
    cases h
    obtain ⟨hmask, hpattern⟩ := opcodeTable_row_spec r (List.mem_of_find?_eq_some hr)
    have hmatch : b &&& r.mask = r.pattern := by simpa using List.find?_some hr
    have hwhole : b &&& 0xFF = b := BitVec.and_allOnes
    rw [hpattern, ← hmatch, hmask, hwhole]
  next => cases h

/-- The values that R83 lists as illegal opcodes. -/
def ListedIllegal (n : Nat) : Prop :=
  n = 0x00 ∨ (0x05 ≤ n ∧ n ≤ 0x0F) ∨ (0x12 ≤ n ∧ n ≤ 0x1F) ∨ (0x22 ≤ n ∧ n ≤ 0x2F) ∨
    (0x31 ≤ n ∧ n ≤ 0x3F) ∨ (0x42 ≤ n ∧ n ≤ 0x4F) ∨ (0x51 ≤ n ∧ n ≤ 0xFF)

/-- No command's opcode is listed as illegal. -/
theorem not_listedIllegal_encode (i : Instr) : ¬ ListedIllegal (encode i).toNat := by
  unfold ListedIllegal
  cases i <;> decide

/-- The list of R83 leaves out the opcodes of R81 only. -/
theorem exists_encode_of_not_listedIllegal {b : Byte} (h : ¬ ListedIllegal b.toNat) : ∃ i, encode i = b := by
  have hopcode : b.toNat = 0x01 ∨ b.toNat = 0x02 ∨ b.toNat = 0x03 ∨ b.toNat = 0x04 ∨ b.toNat = 0x10 ∨ b.toNat = 0x11 ∨
      b.toNat = 0x20 ∨ b.toNat = 0x21 ∨ b.toNat = 0x30 ∨ b.toNat = 0x40 ∨ b.toNat = 0x41 ∨ b.toNat = 0x50 := by
    have hbyte := b.isLt
    unfold ListedIllegal at h
    omega
  have of_toNat (i : Instr) (hi : b.toNat = (encode i).toNat) : ∃ i, encode i = b := ⟨i, BitVec.eq_of_toNat_eq hi.symm⟩
  rcases hopcode with hb | hb | hb | hb | hb | hb | hb | hb | hb | hb | hb | hb
  exacts [of_toNat .keyclr hb, of_toNat .keyset hb, of_toNat .keygen hb, of_toNat .keyget hb, of_toNat .encb hb,
    of_toNat .decb hb, of_toNat .padadd hb, of_toNat .padrem hb, of_toNat .ivgen hb, of_toNat .cbcenc hb,
    of_toNat .cbcdec hb, of_toNat .iclr hb]

/-- A byte is a command exactly when R83 does not list it. -/
theorem exists_decode_eq_ok_iff (b : Byte) : (∃ i, decode b = .ok i) ↔ ¬ ListedIllegal b.toNat := by
  constructor
  · rintro ⟨i, hi⟩
    rw [← encode_eq_of_decode_eq_ok hi]
    exact not_listedIllegal_encode i
  · intro h
    obtain ⟨i, rfl⟩ := exists_encode_of_not_listedIllegal h
    exact ⟨i, decode_encode i⟩

/-! ### The step of a write to CMD -/

theorem step_of_cmd_write (s : State) (b : Byte) (rest : List Input) (h : s.inputs = .move (.write 0 b) :: rest) :
    step s = issueCommand b { s with inputs := rest } := by
  rw [step_of_inputs s _ _ h]
  rfl

/-- A write to CMD of a listed byte sets ERR to 15 alone (R83, R185). -/
theorem issueCommand_of_listedIllegal (b : Byte) (s : State) (h : ListedIllegal b.toNat) :
    issueCommand b s = .next { s with err := 15 } := by
  obtain ⟨i, hi, -⟩ | ⟨-, hnext⟩ := issueCommand_cases b s
  · exact absurd h ((exists_decode_eq_ok_iff b).1 ⟨i, hi⟩)
  · exact hnext

/-! ### The obligations -/

/-- Settles O3: a listed byte decodes to no command, so the step raises ERR 15 alone; the other twelve bytes decode. -/
theorem illegalOpcodeSetsErrFifteenOnly : Obligations.IllegalOpcodeSetsErrFifteenOnly := by
  unfold Obligations.IllegalOpcodeSetsErrFifteenOnly
  intro s b rest h
  exact ⟨fun hl => (step_of_cmd_write s b rest h).trans (issueCommand_of_listedIllegal b _ hl),
    (exists_decode_eq_ok_iff b).2⟩

/-- Settles O1: each byte written out is its command's encoding. -/
theorem opcodeMapDecodesItsTwelveBytes : Obligations.OpcodeMapDecodesItsTwelveBytes := by
  unfold Obligations.OpcodeMapDecodesItsTwelveBytes
  exact ⟨decode_encode .keyclr, decode_encode .keyset, decode_encode .keygen, decode_encode .keyget,
    decode_encode .encb, decode_encode .decb, decode_encode .padadd, decode_encode .padrem,
    decode_encode .ivgen, decode_encode .cbcenc, decode_encode .cbcdec, decode_encode .iclr⟩

end Sys2Proof.Machine
end

section
/-! Rules of the key register commands (spec/40_key_material.md rules R100, R101, R103, R104, R106). -/

namespace Sys2Proof.Machine

/-! ### What each command does -/

theorem exec_keyclr (s : State) : exec .keyclr s = .next (s.replaceKey Config.params zeroBlock).succeed := rfl

theorem exec_keyset_of_short (s : State) (h : s.ibuf.length < 16) : exec .keyset s = .next (s.raise .keyLoad false) :=
  congrArg Host.Outcome.next (if_pos h)

theorem exec_keyset_of_long (s : State) (h : 16 ≤ s.ibuf.length) :
    exec .keyset s = .next (s.replaceKey Config.params s.keyOperand).succeed :=
  congrArg Host.Outcome.next (if_neg (Nat.not_lt.2 h))

theorem exec_keygen (s : State) :
    exec .keygen s = .next (s.replaceKey Config.params (s.nextDraws Config.params)).consumeDraws.succeed := rfl

theorem exec_keyget (s : State) : exec .keyget s = .next (s.setObuf s.key.toList).succeed := rfl

/-- Every command completes (R212). -/
theorem exists_exec_eq_next (i : Instr) (s : State) : ∃ t, exec i s = .next t := by
  cases i <;> exact ⟨_, rfl⟩

/-! ### The keys that KEYSET and KEYGEN load -/

theorem State.keyOperand_toList (s : State) (h : 16 ≤ s.ibuf.length) : s.keyOperand.toList = s.ibuf.take 16 := by
  have hread : memRead s.ibuf 0 16 = s.ibuf.take 16 := rfl
  have hlen : 16 ≤ (s.ibuf.take 16).length := by simp [h]
  rw [State.keyOperand, hread, blockOf_toList _ hlen, List.take_take, Nat.min_self]

theorem State.nextDraws_getElem (c : Params) (s : State) (i : Fin 16) : (s.nextDraws c)[i] = c.draw (s.draws + i.val) :=
  bytes16_getElem _ i

/-! ### STATUS under the new key (R22, R28) -/

/-- Validity, said of the key's bytes as a sequence. -/
theorem isValid_iff_exists_mem_toList (k : Block) : isValid k = true ↔ ∃ b ∈ k.toList, b ≠ 0 := by
  simp only [isValid_iff, Vector.mem_toList_iff, Vector.mem_iff_getElem]
  constructor
  · rintro ⟨i, hi⟩
    exact ⟨k[i], ⟨i.val, i.isLt, rfl⟩, hi⟩
  · rintro ⟨_, ⟨i, hi, rfl⟩, hb⟩
    exact ⟨⟨i, hi⟩, hb⟩

/-- With ERR 0, STATUS reads 0x80 under any condition that is the key's validity, and 0x00 otherwise. -/
theorem readByte_status_of_isValid_iff (s : State) (herr : s.err = 0) (p : Prop) [Decidable p]
    (hp : isValid s.key = true ↔ p) : readByte 1 s = .ok (if p then 0x80 else 0x00) := by
  rw [readByte_status, statusByte_of_err_zero s herr]
  exact congrArg Except.ok (if_congr hp rfl rfl)

/-! ### The obligations -/

/-- Settles O6: a short IBUF raises KeyLoadError alone; otherwise the key is `State.keyOperand`, the first 16 bytes. -/
theorem keysetLoadsFirstSixteenBytes : Obligations.KeysetLoadsFirstSixteenBytes := by
  unfold Obligations.KeysetLoadsFirstSixteenBytes
  intro s
  refine ⟨exec_keyset_of_short s, fun h => ?_⟩
  have hkey := s.keyOperand_toList h
  refine ⟨_, exec_keyset_of_long s h, hkey, rfl, readByte_status_of_isValid_iff _ rfl _ ?_⟩
  rw [← hkey]
  exact isValid_iff_exists_mem_toList _

/-- Settles O7: the key is `State.nextDraws`, whose byte i is the oracle's answer i places on. -/
theorem keygenLoadsSixteenDraws : Obligations.KeygenLoadsSixteenDraws := by
  unfold Obligations.KeygenLoadsSixteenDraws
  intro s
  exact ⟨_, exec_keygen s, s.nextDraws_getElem Config.params, rfl, readByte_status_of_isValid_iff _ rfl _ (isValid_iff _)⟩

/-- Settles O5: replacing the key by the zero key overwrites KEY, RK and ERR only, so a second time changes nothing. -/
theorem keyclrSetsZeroKey : Obligations.KeyclrSetsZeroKey := by
  unfold Obligations.KeyclrSetsZeroKey
  rw [← zeroBlock_eq_replicate]
  intro s
  exact ⟨_, exec_keyclr s, rfl, readByte_status_of_zero_key _ rfl rfl, exec_keyclr _, fun i => exists_exec_eq_next i _⟩

/-- Settles O8: OBUF becomes the key's sixteen bytes. -/
theorem keygetCopiesKeyToOutput : Obligations.KeygetCopiesKeyToOutput := by
  unfold Obligations.KeygetCopiesKeyToOutput
  intro s
  have hbyte (i : Fin 16) : s.key.toList[i.val]? = some s.key[i] := by simp
  exact ⟨_, exec_keyget s, rfl, s.key.length_toList, hbyte⟩

/-- Settles O9: each of the three commands runs `State.replaceKey`, which writes the schedule of the key it writes. -/
theorem keyReplacementRegeneratesWholeSchedule : Obligations.KeyReplacementRegeneratesWholeSchedule := by
  unfold Obligations.KeyReplacementRegeneratesWholeSchedule
  rintro i s (rfl | ⟨rfl, h⟩ | rfl)
  · exact ⟨_, exec_keyclr s, State.replaceKey_rk _ _ s⟩
  · exact ⟨_, exec_keyset_of_long s h, State.replaceKey_rk _ _ s⟩
  · exact ⟨_, exec_keygen s, State.replaceKey_rk _ _ s⟩

end Sys2Proof.Machine
end

section
/-! Rules of the substitution function G and the round function F (spec/41_substitution_round.md rules R120, R122). -/

namespace Sys2Proof.Machine

/-! ### Bit slices as arithmetic -/

/-- A bit slice is a quotient by the power of two below it, taken modulo the slice's size. -/
theorem extractLsb'_eq_ofNat_div {w : Nat} (x : BitVec w) (start len : Nat) :
    x.extractLsb' start len = BitVec.ofNat len (x.toNat / 2 ^ start) :=
  congrArg (BitVec.ofNat len) (Nat.shiftRight_eq_div_pow x.toNat start)

/-- Where the slice begins at bit 0, nothing is divided away. -/
theorem extractLsb'_zero_eq_ofNat {w : Nat} (x : BitVec w) (len : Nat) :
    x.extractLsb' 0 len = BitVec.ofNat len x.toNat := by
  rw [extractLsb'_eq_ofNat_div, Nat.pow_zero, Nat.div_one]

/-! ### What G and F compute -/

/-- G looks up the four bytes of its word, the most significant in table 0 (R120). -/
theorem G_eq_xor_lookups (c : Params) (x : Word) :
    G c x = c.SS 0 (x.extractLsb' 24 8) ^^^ c.SS 1 (x.extractLsb' 16 8) ^^^
      c.SS 2 (x.extractLsb' 8 8) ^^^ c.SS 3 (x.extractLsb' 0 8) := rfl

/-- F with each assignment of R122 that gives a new value named once: `a` and `d` are values of T0, `b` is one of T1. -/
theorem F_eq_add_G (c : Params) (ki0 ki1 r0 r1 : Word) :
    let a := r0 ^^^ ki0
    let b := G c (r1 ^^^ ki1 ^^^ a)
    let d := G c (a + b)
    F c ki0 ki1 r0 r1 = d + G c (b + d) := rfl

/-- Where G is the identity, only the three additions of F are left (R122's example). -/
theorem F_of_G_identity (c : Params) (ki0 ki1 r0 r1 : Word) (hG : ∀ x, G c x = x) :
    F c ki0 ki1 r0 r1 = 2 * (r0 ^^^ ki0) + 3 * (r1 ^^^ ki1 ^^^ (r0 ^^^ ki0)) := by
  have hadd (a b : Word) : (a + b) + (b + (a + b)) = 2 * a + 3 * b := by ring
  simp only [F_eq_add_G, hG, hadd]

/-! ### The obligations -/

/-- Settles O10: the four bytes G looks up are slices of its word, and each slice is the quotient the statement writes. -/
theorem substitutionPairsHighByteWithTableZero : Obligations.SubstitutionPairsHighByteWithTableZero := by
  unfold Obligations.SubstitutionPairsHighByteWithTableZero
  intro c x
  rw [G_eq_xor_lookups, extractLsb'_zero_eq_ofNat, extractLsb'_eq_ofNat_div x 24, extractLsb'_eq_ofNat_div x 16,
    extractLsb'_eq_ofNat_div x 8]

/-- Settles O11: the closed form of F, and its value when the three substitutions drop out. -/
theorem roundFunctionMixesThreeSubstitutions : Obligations.RoundFunctionMixesThreeSubstitutions := by
  unfold Obligations.RoundFunctionMixesThreeSubstitutions
  intro c ki0 ki1 r0 r1
  exact ⟨F_eq_add_G c ki0 ki1 r0 r1, F_of_G_identity c ki0 ki1 r0 r1⟩

end Sys2Proof.Machine
end

section
/-! Rules of the key schedule (spec/42_key_schedule.md rules R130, R133, R134). -/

namespace Sys2Proof.Machine

/-! ### Rotations made by the rounds so far -/

/-- One more round, on the list of the rounds already run. -/
theorem rounds_take_succ (n : Nat) (hn : n < 16) : rounds.take (n + 1) = rounds.take n ++ [⟨n, hn⟩] := by
  rw [List.take_succ_eq_append_getElem (by simpa [rounds] using hn), rounds_getElem ⟨n, hn⟩]

/-- Among the first `n` rounds, `(n+1)/2` are even and rotate (K0,K1) left by 8, and `n/2` are odd and rotate (K2,K3) right
by 8 (R130, R133). -/
theorem foldl_rotateKeyWords_pairs (k : KeyWords) (n : Nat) (hn : n ≤ 16) :
    let w := (rounds.take n).foldl rotateKeyWords k
    pair w.K0 w.K1 = (pair k.K0 k.K1).rotateLeft (8 * ((n + 1) / 2)) ∧
    pair w.K2 w.K3 = (pair k.K2 k.K3).rotateRight (8 * (n / 2)) := by
  induction n with
  | zero => exact ⟨(rotateLeft_by_zero _).symm, (rotateRight_by_zero _).symm⟩
  | succ n ih =>
    obtain ⟨ihLeft, ihRight⟩ := ih (by omega)
    obtain ⟨left, right⟩ := rotateKeyWords_pairs ((rounds.take n).foldl rotateKeyWords k) ⟨n, hn⟩
    have leftCount : 8 * ((n + 1) / 2) + (if n % 2 = 0 then 8 else 0) = 8 * ((n + 1 + 1) / 2) := by split <;> omega
    have rightCount : 8 * (n / 2) + (if n % 2 = 0 then 0 else 8) = 8 * ((n + 1) / 2) := by split <;> omega
    rw [ihLeft, rotateLeft_rotateLeft_add, leftCount] at left
    rw [ihRight, rotateRight_rotateRight_add, rightCount] at right
    rw [rounds_take_succ n hn, List.foldl_append]
    exact ⟨left, right⟩

/-! ### What a round computes from the two pairs -/

/-- T0 is made of the high words of the two pairs, T1 of the low words (R130, R134). -/
theorem scheduleT0_scheduleT1_of_pairs (c : Params) (i : Fin 16) {w : KeyWords} {A B : DWord} (hA : pair w.K0 w.K1 = A)
    (hB : pair w.K2 w.K3 = B) :
    scheduleT0 c w i = hiWord A + hiWord B - c.KC i ∧ scheduleT1 c w i = loWord A - loWord B + c.KC i := by
  subst hA hB
  rw [hiWord_pair, hiWord_pair, loWord_pair, loWord_pair]
  exact ⟨rfl, rfl⟩

/-! ### The obligation -/

/-- Settles O12: round i computes its words from `keyWordsBefore k i`, whose two pairs are the key's pairs after the
rotations of the earlier rounds. -/
theorem keyScheduleUsesPairsRotatedBeforeEachRound : Obligations.KeyScheduleUsesPairsRotatedBeforeEachRound := by
  unfold Obligations.KeyScheduleUsesPairsRotatedBeforeEachRound
  intro c k i A B
  obtain ⟨hA, hB⟩ := foldl_rotateKeyWords_pairs (keyWords k) i.val i.isLt.le
  obtain ⟨hT0, hT1⟩ := scheduleT0_scheduleT1_of_pairs c i hA hB
  exact ⟨(keySchedule_getElem_even c k i).trans (congrArg (G c) hT0),
    (keySchedule_getElem_odd c k i).trans (congrArg (G c) hT1)⟩

end Sys2Proof.Machine
end

section
/-! Rules of the block transforms and of ENCB and DECB (spec/43_block_cipher.md rules R140 to R145). -/

namespace Sys2Proof.Machine

/-! ### Rounds in a given order -/

theorem rounds_eq_ofFn : rounds = List.ofFn id := rfl

theorem rounds_reverse_eq_ofFn : rounds.reverse = List.ofFn Fin.rev := rfl

/-- A sequence whose every term is `f` of the term before it ends in the fold of `f` over the arguments used. -/
theorem foldl_ofFn_eq_of_updates {α β : Type} (f : α → β → α) (ws : Nat → α) :
    ∀ (n : Nat) (order : Fin n → β), (∀ i : Fin n, ws (i.val + 1) = f (ws i.val) (order i)) →
      (List.ofFn order).foldl f (ws 0) = ws n
  | 0, _, _ => rfl
  | n + 1, order, h => by
    have before := foldl_ofFn_eq_of_updates f ws n (fun i => order i.castSucc) fun i => h i.castSucc
    rw [List.ofFn_succ_last, List.foldl_concat, before]
    exact (h (Fin.last n)).symm

/-- The four words after `n` updates, from the four sequences by which R141 speaks of them. -/
def wordsOfSequences (L0 L1 R0 R1 : Nat → Word) (n : Nat) : BlockWords := ⟨L0 n, L1 n, R0 n, R1 n⟩

/-- Each transform folds the round over its order of the pairs: ascending (R141) or descending (R142). -/
theorem blockTransform_eq_foldl_ofFn (c : Params) (rk : RoundKeys) (b d : Block) (order : Fin 16 → Fin 16)
    (h : ((∀ i, order i = i) ∧ d = encryptBlock c rk b) ∨
      ((∀ i, (order i).val = 15 - i.val) ∧ d = decryptBlock c rk b)) :
    d = outputBlock ((List.ofFn order).foldl (feistelRound c rk) (blockWords b)) := by
  rcases h with ⟨ascending, rfl⟩ | ⟨descending, rfl⟩
  · obtain rfl : order = id := funext ascending
    rw [encryptBlock, rounds_eq_ofFn]
  · obtain rfl : order = Fin.rev := funext fun i => Fin.ext ((descending i).trans (by rw [Fin.val_rev]; omega))
    rw [decryptBlock, rounds_reverse_eq_ofFn]

/-! ### The transforms undo each other (R143) -/

/-- The same rounds in the opposite order undo each other across the exchange of halves. -/
theorem foldl_reverse_feistelRound_swap (c : Params) (rk : RoundKeys) (w : BlockWords) (is : List (Fin 16)) :
    is.reverse.foldl (feistelRound c rk) (is.foldl (feistelRound c rk) w).swap = w.swap := by
  induction is generalizing w with
  | nil => rfl
  | cons i is ih =>
    rw [List.reverse_cons, List.foldl_concat, List.foldl_cons, ih]
    exact feistelRound_swap_feistelRound c rk w i

theorem outputBlock_foldl_reverse_foldl (c : Params) (rk : RoundKeys) (b : Block) (is : List (Fin 16)) :
    outputBlock (is.reverse.foldl (feistelRound c rk)
      (blockWords (outputBlock (is.foldl (feistelRound c rk) (blockWords b))))) = b := by
  rw [blockWords_outputBlock, foldl_reverse_feistelRound_swap, outputBlock_swap_blockWords]

theorem decryptBlock_encryptBlock (c : Params) (rk : RoundKeys) (b : Block) :
    decryptBlock c rk (encryptBlock c rk b) = b :=
  outputBlock_foldl_reverse_foldl c rk b rounds

theorem encryptBlock_decryptBlock (c : Params) (rk : RoundKeys) (b : Block) :
    encryptBlock c rk (decryptBlock c rk b) = b :=
  outputBlock_foldl_reverse_foldl c rk b rounds.reverse

/-! ### ENCB and DECB -/

theorem exec_encb (s : State) : exec .encb s = .next (encb Config.params s) := rfl

theorem exec_decb (s : State) : exec .decb s = .next (decb Config.params s) := rfl

/-- ENCB after DECB leaves only the result code of a success (R145). -/
theorem encb_decb (c : Params) (s : State) : encb c (decb c s) = s.succeed := by
  have restored : encryptBlock c (decb c s).rk (decb c s).blk = s.blk := encryptBlock_decryptBlock c s.rk s.blk
  rw [encb, restored]
  rfl

/-- DECB after ENCB leaves only the result code of a success (R145). -/
theorem decb_encb (c : Params) (s : State) : decb c (encb c s) = s.succeed := by
  have restored : decryptBlock c (encb c s).rk (encb c s).blk = s.blk := decryptBlock_encryptBlock c s.rk s.blk
  rw [decb, restored]
  rfl

/-! ### The obligations -/

/-- Settles O14: the four sequences are the states of the fold, and the output order puts the right half first. -/
theorem blockTransformsRunSixteenRounds : Obligations.BlockTransformsRunSixteenRounds := by
  unfold Obligations.BlockTransformsRunSixteenRounds
  rintro c rk b L0 L1 R0 R1 order ⟨hL0, hL1, hR0, hR1⟩ updates d hd
  have initial : wordsOfSequences L0 L1 R0 R1 0 = blockWords b := by rw [wordsOfSequences, hL0, hL1, hR0, hR1, blockWords]
  have round (i : Fin 16) : wordsOfSequences L0 L1 R0 R1 (i.val + 1) =
      feistelRound c rk (wordsOfSequences L0 L1 R0 R1 i.val) (order i) := by
    obtain ⟨uL0, uL1, uR0, uR1⟩ := updates i
    rw [wordsOfSequences, uL0, uL1, uR0, uR1]
    rfl
  have result : d = outputBlock (wordsOfSequences L0 L1 R0 R1 16) := by
    rw [blockTransform_eq_foldl_ofFn c rk b d order hd, ← initial, foldl_ofFn_eq_of_updates _ _ 16 order round]
  rw [result]
  exact wordAt_packWords (R0 16) (R1 16) (L0 16) (L1 16)

/-- Settles O18: the effect of DECB, and the two compositions by R143. -/
theorem decbDecryptsBlockRegister : Obligations.DecbDecryptsBlockRegister := by
  unfold Obligations.DecbDecryptsBlockRegister
  intro s
  refine ⟨decb Config.params s, encb Config.params s, exec_decb s, rfl, ?_, exec_encb s, ?_⟩
  · rw [exec_encb, encb_decb]
    rfl
  · rw [exec_decb, decb_encb]
    rfl

/-- Settles O17: the effect of ENCB is the record update stated. -/
theorem encbEncryptsBlockRegister : Obligations.EncbEncryptsBlockRegister := by
  unfold Obligations.EncbEncryptsBlockRegister
  exact exec_encb

end Sys2Proof.Machine
end

section
/-! Rules of the padder, of the padding validator and of PADADD and PADREM (spec/44_padding.md rules R150 to R153). -/

namespace Sys2Proof.Machine

/-! ### The validator's conditions (R151) -/

/-- The conditions of R151 on a buffer whose last byte is `last`: all but that of the empty buffer. -/
def BadTrailer (s : List Byte) (last : Byte) : Prop :=
  last.toNat = 0 ∨ 16 < last.toNat ∨ s.length < last.toNat ∨
    ∃ k, s.length - last.toNat ≤ k ∧ k < s.length ∧ s[k]? ≠ some last

/-- The negation, as the four tests that `removePadding` makes. -/
theorem not_badTrailer_iff (s : List Byte) (last : Byte) :
    ¬ BadTrailer s last ↔ ¬ last.toNat = 0 ∧ ¬ 16 < last.toNat ∧ ¬ s.length < last.toNat ∧
      (s.drop (s.length - last.toNat)).all (fun b => b == last) = true := by
  simp only [BadTrailer, not_or, not_exists, not_and, not_not, drop_all_beq_iff]

theorem removePadding_nil : removePadding [] = .error .padding := rfl

theorem removePadding_of_badTrailer {s : List Byte} {last : Byte} (hlast : s.getLast? = some last)
    (hbad : BadTrailer s last) : removePadding s = .error .padding := by
  simp only [removePadding, hlast]
  split_ifs with hzero hlarge hlong hall
  · rfl
  · rfl
  · rfl
  · exact absurd hbad ((not_badTrailer_iff s last).2 ⟨hzero, hlarge, hlong, hall⟩)
  · rfl

theorem removePadding_of_not_badTrailer {s : List Byte} {last : Byte} (hlast : s.getLast? = some last)
    (hgood : ¬ BadTrailer s last) : removePadding s = .ok (s.take (s.length - last.toNat)) := by
  obtain ⟨hzero, hlarge, hlong, hall⟩ := (not_badTrailer_iff s last).1 hgood
  simp only [removePadding, hlast, if_neg hzero, if_neg hlarge, if_neg hlong, if_pos hall]

/-! ### PADADD and PADREM (R152, R153) -/

theorem exec_padadd (s : State) : exec .padadd s = .next (s.produce (.ok (addPadding s.ibuf))) := rfl

theorem exec_padrem (s : State) : exec .padrem s = .next (s.produce (removePadding s.ibuf)) := rfl

/-! ### The obligations -/

/-- Settles O19: p is `padLength`, which lies in 1..16. -/
theorem addPaddingAppendsItsLength : Obligations.AddPaddingAppendsItsLength := by
  unfold Obligations.AddPaddingAppendsItsLength
  intro s
  obtain ⟨hlower, hupper⟩ := padLength_bounds s.length
  exact ⟨padLength s.length, rfl, hlower, hupper, rfl, addPadding_length s⟩

/-- Settles O20: an empty buffer fails, and one with a last byte fails exactly when its trailer is bad. -/
theorem removePaddingFailsOnExactlyFiveConditions : Obligations.RemovePaddingFailsOnExactlyFiveConditions := by
  unfold Obligations.RemovePaddingFailsOnExactlyFiveConditions
  intro s bad
  constructor
  · rintro (rfl | ⟨last, hlast, hbad⟩)
    · exact removePadding_nil
    · exact removePadding_of_badTrailer hlast hbad
  · intro hgood
    obtain ⟨hne, htrailer⟩ := not_or.1 hgood
    have hlast := List.getLast?_eq_some_getLast hne
    exact ⟨_, hlast, removePadding_of_not_badTrailer hlast fun hbad => htrailer ⟨_, hlast, hbad⟩⟩

/-- Settles O22: the result is produced without an error, and the bounds follow from the length law. -/
theorem padaddOutputsPaddedInput : Obligations.PadaddOutputsPaddedInput := by
  unfold Obligations.PadaddOutputsPaddedInput
  intro s
  have hlen := addPadding_length s.ibuf
  have hbound : (addPadding s.ibuf).length ≤ s.ibuf.length + 16 := by omega
  exact ⟨_, exec_padadd s, rfl, hlen, hbound, fun hfit => hbound.trans (by omega)⟩

/-- Settles O23: the output template puts the stripped buffer in OBUF, or empties it with the code of PaddingError, the only
error that the validator raises. -/
theorem padremStripsOrReportsPaddingError : Obligations.PadremStripsOrReportsPaddingError := by
  unfold Obligations.PadremStripsOrReportsPaddingError
  intro s
  refine ⟨fun r h => ⟨?_, ?_⟩, fun e h => ?_⟩
  · rw [exec_padrem, h]
    rfl
  · obtain ⟨p, hlower, hupper, hsplit⟩ := removePadding_ok_eq _ _ h
    exact ⟨p, hlower, hupper, by rw [hsplit, List.length_append, List.length_replicate]⟩
  · obtain rfl := removePadding_error_eq _ _ h
    rw [exec_padrem, h]
    rfl

end Sys2Proof.Machine
end

section
/-! Rules of the IV generator, of the CBC functions and of IVGEN, CBCENC, CBCDEC and ICLR (spec/45_iv_cbc.md rules R160 to
R165, R168). -/

namespace Sys2Proof.Machine

/-! ### The envelope (R161, R163) -/

theorem cbcEncrypt_length (c : Params) (rk : RoundKeys) (s : List Byte) (iv : Block) :
    (cbcEncrypt c rk s iv).length = 16 + (addPadding s).length := by
  have hpad := addPadding_length s
  simp only [cbcEncrypt, List.length_append, Vector.length_toList, encryptChain_length, blocks_length]
  omega

theorem cbcEncrypt_take_iv (c : Params) (rk : RoundKeys) (s : List Byte) (iv : Block) :
    (cbcEncrypt c rk s iv).take 16 = iv.toList :=
  List.take_left' iv.length_toList

/-- The loop invariant of R161: behind the block `prev` the chain's block j is block j of `P` XOR the block before it,
encrypted. -/
theorem blockAt_encryptChain (c : Params) (rk : RoundKeys) (prev : Block) (P : List Byte) (m j : Nat) (hj : j < m) :
    let E := prev.toList ++ encryptChain c rk prev (blocks m P)
    blockAt E (j + 1) = encryptBlock c rk (xor16 (blockAt P j) (blockAt E j)) := by
  induction m generalizing prev P j with
  | zero => exact absurd hj j.not_lt_zero
  | succ m ih =>
    simp only [blocks_succ, encryptChain]
    cases j with
    | zero => rw [blockAt_succ_append, blockAt_zero_append, blockAt_zero_append]
    | succ j =>
      rw [blockAt_succ_append, blockAt_succ_append prev, blockAt_succ P]
      exact ih _ (P.drop 16) j (Nat.lt_of_succ_lt_succ hj)

/-! ### The assembled plaintext (R164) -/

/-- The loop invariant of R164: block j of the chain over the blocks of `e` after its first is block j + 1 of `e`
decrypted, XOR block j of `e`. -/
theorem blockAt_decryptChain (c : Params) (rk : RoundKeys) (e : List Byte) (m j : Nat) (hj : j < m) :
    blockAt (decryptChain c rk (blockAt e 0) (blocks m (e.drop 16))) j =
      xor16 (decryptBlock c rk (blockAt e (j + 1))) (blockAt e j) := by
  induction m generalizing e j with
  | zero => exact absurd hj j.not_lt_zero
  | succ m ih =>
    rw [blocks_succ, decryptChain]
    cases j with
    | zero => rw [blockAt_zero_append, blockAt_succ]
    | succ j =>
      rw [blockAt_succ_append, blockAt_succ e, blockAt_succ e]
      exact ih (e.drop 16) j (Nat.lt_of_succ_lt_succ hj)

theorem blockAt_assembledPlaintext (c : Params) (rk : RoundKeys) (e : List Byte) (j : Nat) (hj : j < e.length / 16 - 1) :
    blockAt (assembledPlaintext c rk e) j = xor16 (decryptBlock c rk (blockAt e (j + 1))) (blockAt e j) :=
  blockAt_decryptChain c rk e _ j hj

/-! ### The three outcomes of CbcDecrypt (R164) -/

theorem cbcDecrypt_of_short (c : Params) (rk : RoundKeys) {e : List Byte} (h : e.length < 32) :
    cbcDecrypt c rk e = .error .envelopeTooShort :=
  if_pos h

theorem cbcDecrypt_of_misaligned (c : Params) (rk : RoundKeys) {e : List Byte} (h : 32 ≤ e.length)
    (h16 : (e.length - 16) % 16 ≠ 0) : cbcDecrypt c rk e = .error .envelopeMisaligned :=
  (if_neg (Nat.not_lt.2 h)).trans (if_pos h16)

theorem cbcDecrypt_of_whole_blocks (c : Params) (rk : RoundKeys) {e : List Byte} (h : 32 ≤ e.length)
    (h16 : (e.length - 16) % 16 = 0) : cbcDecrypt c rk e = removePadding (assembledPlaintext c rk e) :=
  (if_neg (Nat.not_lt.2 h)).trans (if_neg (not_not.2 h16))

/-- A plaintext is the assembled plaintext less 1 to 16 bytes of padding (R165). -/
theorem length_bounds_of_cbcDecrypt_eq_ok (c : Params) (rk : RoundKeys) {e r : List Byte} (h : 32 ≤ e.length)
    (h16 : (e.length - 16) % 16 = 0) (hr : cbcDecrypt c rk e = .ok r) :
    e.length - 32 ≤ r.length ∧ r.length ≤ e.length - 17 := by
  rw [cbcDecrypt_of_whole_blocks c rk h h16] at hr
  obtain ⟨p, hlower, hupper, hsplit⟩ := removePadding_ok_eq _ _ hr
  have hlen : r.length + p = e.length - 16 := by
    rw [← assembledPlaintext_length c rk e h h16, hsplit, List.length_append, List.length_replicate]
  omega

/-! ### IVGEN, CBCENC, CBCDEC and ICLR (R160, R162, R165, R168) -/

theorem exec_ivgen (s : State) :
    exec .ivgen s = .next (s.setObuf (s.nextDraws Config.params).toList).succeed.consumeDraws := rfl

theorem exec_cbcenc (s : State) :
    exec .cbcenc s =
      .next (s.setObuf (cbcEncrypt Config.params s.rk s.ibuf (s.nextDraws Config.params))).succeed.consumeDraws := rfl

theorem exec_cbcdec_of_ok {s : State} {r : List Byte} (h : cbcDecrypt Config.params s.rk s.ibuf = .ok r) :
    exec .cbcdec s = .next (s.setObuf r).succeed :=
  congrArg (fun result => Host.Outcome.next (s.produce result)) h

theorem exec_cbcdec_of_error {s : State} {e : ErrorKind} (h : cbcDecrypt Config.params s.rk s.ibuf = .error e) :
    exec .cbcdec s = .next (s.raise e true) :=
  congrArg (fun result => Host.Outcome.next (s.produce result)) h

theorem exec_iclr (s : State) : exec .iclr s = .next (s.setIbuf []).succeed := rfl

/-! ### The obligations -/

/-- Settles O25: the envelope's blocks are those of the chain over the padded blocks, with the IV in front. -/
theorem envelopeBlocksChainFromIv : Obligations.EnvelopeBlocksChainFromIv := by
  unfold Obligations.EnvelopeBlocksChainFromIv
  intro c rk s iv P E
  have hpad : P.length = 16 * (s.length / 16 + 1) := addPadding_length s
  exact ⟨cbcEncrypt_length c rk s iv, cbcEncrypt_take_iv c rk s iv, fun j hj =>
    blockAt_encryptChain c rk iv P (P.length / 16) j (by omega)⟩

/-- Settles O27: both forms are arithmetic on the length law of the padding. -/
theorem envelopeLengthLaw : Obligations.EnvelopeLengthLaw := by
  unfold Obligations.EnvelopeLengthLaw
  intro c rk s iv n len
  have hlen : len = 16 + 16 * (n / 16 + 1) := by
    rw [← addPadding_length]
    exact cbcEncrypt_length c rk s iv
  refine ⟨hlen, fun _ => ?_, fun _ => ?_, n / 16 + 1, Nat.le_add_left _ _, hlen⟩ <;> omega

/-- Settles O28: the sequence is `assembledPlaintext`, and each test of the length is made under the negation of the one
before it. -/
theorem cbcDecryptChecksLengthThenUnchains : Obligations.CbcDecryptChecksLengthThenUnchains := by
  unfold Obligations.CbcDecryptChecksLengthThenUnchains
  intro c rk e
  refine ⟨cbcDecrypt_of_short c rk, cbcDecrypt_of_misaligned c rk, fun h h16 => ?_⟩
  have hlen := assembledPlaintext_length c rk e h h16
  exact ⟨assembledPlaintext c rk e, hlen, fun j hj => blockAt_assembledPlaintext c rk e j (by omega),
    cbcDecrypt_of_whole_blocks c rk h h16⟩

/-- Settles O29: the output template applied to the outcomes of CbcDecrypt; past the length tests the only error is that of
the padding. -/
theorem cbcdecOutputsPlaintextOrOneOfThreeErrors : Obligations.CbcdecOutputsPlaintextOrOneOfThreeErrors := by
  unfold Obligations.CbcdecOutputsPlaintextOrOneOfThreeErrors
  intro s
  refine ⟨fun h => exec_cbcdec_of_error (cbcDecrypt_of_short _ _ h),
    fun h h16 => exec_cbcdec_of_error (cbcDecrypt_of_misaligned _ _ h h16), fun h h16 => ⟨fun r hr => ?_, fun e he => ?_⟩⟩
  · exact ⟨exec_cbcdec_of_ok hr, length_bounds_of_cbcDecrypt_eq_ok _ _ h h16 hr⟩
  · have hpad := (cbcDecrypt_of_whole_blocks _ _ h h16).symm.trans he
    obtain rfl := removePadding_error_eq _ _ hpad
    exact ⟨hpad, exec_cbcdec_of_error he⟩

/-- Settles O24: the bytes put in OBUF are `State.nextDraws`. -/
theorem ivgenOutputsSixteenDraws : Obligations.IvgenOutputsSixteenDraws := by
  unfold Obligations.IvgenOutputsSixteenDraws
  intro s
  have hbyte (i : Fin 16) : (s.nextDraws Config.params).toList[i.val]? = some (Config.params.draw (s.draws + i.val)) := by
    rw [← State.nextDraws_getElem]
    simp
  exact ⟨_, exec_ivgen s, rfl, (s.nextDraws Config.params).length_toList, hbyte⟩

/-- Settles O26: the IV is `State.nextDraws`. -/
theorem cbcencOutputsEnvelope : Obligations.CbcencOutputsEnvelope := by
  unfold Obligations.CbcencOutputsEnvelope
  intro s
  exact ⟨s.nextDraws Config.params, s.nextDraws_getElem Config.params, exec_cbcenc s⟩

/-- Settles O33: ICLR overwrites IBUF and ERR only, so a second time changes nothing. -/
theorem iclrEmptiesInputBuffer : Obligations.IclrEmptiesInputBuffer := by
  unfold Obligations.IclrEmptiesInputBuffer
  intro s
  exact ⟨exec_iclr s, exec_iclr _⟩

end Sys2Proof.Machine
end

section
/-! Rules of the result codes: which command raises which error, and the code it leaves (spec/60_exceptions.md rules R180,
R185, R186). -/

namespace Sys2Proof.Machine

/-! ### The codes (R180) -/

theorem ErrorKind.code_ne_okCode (e : ErrorKind) : e.code ≠ okCode := by cases e <;> decide

theorem ErrorKind.code_inj {e e' : ErrorKind} : e.code = e'.code ↔ e = e' := by
  cases e <;> cases e' <;> decide

theorem legalErr_okCode : legalErr okCode := .inl rfl

theorem legalErr_code (e : ErrorKind) : legalErr e.code := by
  unfold legalErr
  cases e <;> decide

/-! ### The code that a set of raised errors leaves (R88, R184) -/

/-- `err` is 0 when no error is raised, and otherwise the code of the one error that is. -/
def LeavesCodeOf (raises : ErrorKind → Prop) (err : BitVec 4) : Prop :=
  (err = okCode ∧ ∀ e, ¬ raises e) ∨ ∃ e, err = e.code ∧ ∀ e', raises e' ↔ e' = e

theorem LeavesCodeOf.legalErr {raises : ErrorKind → Prop} {err : BitVec 4} (h : LeavesCodeOf raises err) :
    legalErr err := by
  obtain ⟨rfl, -⟩ | ⟨e, rfl, -⟩ := h
  · exact legalErr_okCode
  · exact legalErr_code e

theorem LeavesCodeOf.eq_code_iff {raises : ErrorKind → Prop} {err : BitVec 4} (h : LeavesCodeOf raises err)
    (e : ErrorKind) : err = e.code ↔ raises e := by
  obtain ⟨rfl, hnone⟩ | ⟨e', rfl, hone⟩ := h
  · exact iff_of_false e.code_ne_okCode.symm (hnone e)
  · rw [ErrorKind.code_inj, hone, eq_comm]

/-- The output template leaves the code of its result's error. -/
theorem State.produce_leavesCodeOf (s : State) {r : Except ErrorKind (List Byte)} {raises : ErrorKind → Prop}
    (h : ∀ e, raises e ↔ r = .error e) : LeavesCodeOf raises (s.produce r).err := by
  cases r with
  | ok out => exact .inl ⟨rfl, fun e he => nomatch (h e).1 he⟩
  | error e => exact .inr ⟨e, rfl, fun e' => by rw [h, Except.error.injEq, eq_comm]⟩

/-! ### The table's conditions (R180, R186) -/

/-- Command `i` raises the error in state `s`: the rows of R180's table, with the order of R186 among those of CBCDEC. -/
def Raises (i : Instr) (s : State) : ErrorKind → Prop
  | .keyLoad => i = .keyset ∧ s.ibuf.length < 16
  | .envelopeTooShort => i = .cbcdec ∧ s.ibuf.length < 32
  | .envelopeMisaligned => i = .cbcdec ∧ 32 ≤ s.ibuf.length ∧ (s.ibuf.length - 16) % 16 ≠ 0
  | .padding => (i = .padrem ∧ removePadding s.ibuf = .error .padding) ∨
      (i = .cbcdec ∧ 32 ≤ s.ibuf.length ∧ (s.ibuf.length - 16) % 16 = 0 ∧
        removePadding (assembledPlaintext Config.params s.rk s.ibuf) = .error .padding)
  | .illegalCommand => False

theorem not_raises_of_infallible {i : Instr} (hkeyset : i ≠ .keyset) (hpadrem : i ≠ .padrem) (hcbcdec : i ≠ .cbcdec)
    (s : State) (e : ErrorKind) : ¬ Raises i s e := by
  cases e <;> simp [Raises, hkeyset, hpadrem, hcbcdec]

theorem raises_keyset_iff (s : State) (e : ErrorKind) : Raises .keyset s e ↔ s.ibuf.length < 16 ∧ e = .keyLoad := by
  cases e <;> simp [Raises]

/-- PaddingError is the only error of the validator (R151). -/
theorem removePadding_eq_error_iff (b : List Byte) (e : ErrorKind) :
    removePadding b = .error e ↔ e = .padding ∧ removePadding b = .error .padding := by
  constructor
  · intro h
    obtain rfl := removePadding_error_eq b e h
    exact ⟨rfl, h⟩
  · rintro ⟨rfl, h⟩
    exact h

theorem raises_padrem_iff (s : State) (e : ErrorKind) : Raises .padrem s e ↔ removePadding s.ibuf = .error e := by
  rw [removePadding_eq_error_iff]
  cases e <;> simp [Raises]

/-- CBCDEC's rows are the errors of CbcDecrypt: each test is made only when the one before it passed. -/
theorem raises_cbcdec_iff (s : State) (e : ErrorKind) :
    Raises .cbcdec s e ↔ cbcDecrypt Config.params s.rk s.ibuf = .error e := by
  obtain ⟨hlen, hr⟩ | ⟨hlen, h16, hr⟩ | ⟨hlen, h16, hr⟩ := cbcDecrypt_cases Config.params s.rk s.ibuf
  · rw [hr]
    cases e <;> simp [Raises, hlen, Nat.not_le.2 hlen]
  · rw [hr]
    cases e <;> simp [Raises, hlen, h16, Nat.not_lt.2 hlen]
  · rw [hr, removePadding_eq_error_iff]
    cases e <;> simp [Raises, hlen, h16, Nat.not_lt.2 hlen]

/-- A command leaves the code of the error that the table says it raises, and 0 when it raises none. -/
theorem exec_leavesCodeOf_raises {i : Instr} {s t : State} (h : exec i s = .next t) :
    LeavesCodeOf (Raises i s) t.err := by
  cases i with
  | keyset =>
    rcases Nat.lt_or_ge s.ibuf.length 16 with hlen | hlen
    · obtain rfl := Host.Outcome.next.inj ((exec_keyset_of_short s hlen).symm.trans h)
      exact .inr ⟨.keyLoad, rfl, fun e => by rw [raises_keyset_iff, and_iff_right hlen]⟩
    · obtain rfl := Host.Outcome.next.inj ((exec_keyset_of_long s hlen).symm.trans h)
      exact .inl ⟨rfl, fun e he => Nat.not_lt.2 hlen ((raises_keyset_iff s e).1 he).1⟩
  | padrem =>
    cases h
    exact s.produce_leavesCodeOf (raises_padrem_iff s)
  | cbcdec =>
    cases h
    exact s.produce_leavesCodeOf (raises_cbcdec_iff s)
  | keyclr | keygen | keyget | encb | decb | padadd | ivgen | cbcenc | iclr =>
    cases h
    exact .inl ⟨rfl, not_raises_of_infallible (by decide) (by decide) (by decide) s⟩

/-! ### The obligation -/

/-- Settles O38: a command leaves code k exactly when the table's row of k holds, and no row gives a command code 15, which a
byte that decodes to no command gets. -/
theorem resultCodesFollowTheTable : Obligations.ResultCodesFollowTheTable := by
  unfold Obligations.ResultCodesFollowTheTable
  constructor
  · intro i s t h
    have hcode := exec_leavesCodeOf_raises h
    exact ⟨hcode.legalErr, (hcode.eq_code_iff .illegalCommand).1, hcode.eq_code_iff .keyLoad,
      hcode.eq_code_iff .envelopeTooShort, hcode.eq_code_iff .envelopeMisaligned, hcode.eq_code_iff .padding⟩
  · intro b s hb
    obtain ⟨i, hi, -⟩ | ⟨-, hnext⟩ := issueCommand_cases b s
    · exact absurd hi (hb i)
    · exact hnext

end Sys2Proof.Machine
end

section
/-! The opcode map both ways, and the step of a command written to CMD (spec/30_encoding.md rules R80, R84). -/

namespace Sys2Proof.Machine

theorem decode_eq_ok_iff (b : Byte) (i : Instr) : decode b = .ok i ↔ encode i = b := by
  constructor
  · exact encode_eq_of_decode_eq_ok
  · rintro rfl
    exact decode_encode i

theorem issueCommand_of_decode {b : Byte} {i : Instr} (h : decode b = .ok i) (s : State) :
    issueCommand b s = exec i s := by
  rw [issueCommand, h]

/-! ### The obligations -/

/-- Settles O2: `decode_encode` one way, and the whole-byte match of a table row the other. -/
theorem decodeIsInverseOfEncode : Obligations.DecodeIsInverseOfEncode := by
  unfold Obligations.DecodeIsInverseOfEncode
  exact decode_eq_ok_iff

/-- Settles O4: the step takes the write, and the byte decodes to `i`. -/
theorem stepRunsTheCommandWrittenToCmd : Obligations.StepRunsTheCommandWrittenToCmd := by
  unfold Obligations.StepRunsTheCommandWrittenToCmd
  intro s b i rest h hdecode
  rw [step_of_cmd_write s b rest h, issueCommand_of_decode hdecode]

/-- Settles O34: each arm of `exec` answers a next state. -/
theorem everyCommandCompletesInEveryState : Obligations.EveryCommandCompletesInEveryState := by
  unfold Obligations.EveryCommandCompletesInEveryState
  exact exists_exec_eq_next

end Sys2Proof.Machine
end

section
/-! What a command can do to the state, and the frame, bounds and error rules that follow (spec/10_state.md rule R35,
spec/20_memory.md rule R58, spec/60_exceptions.md rules R183, R184). -/

namespace Sys2Proof.Machine

/-! ### What a command can do -/

/-- The oracle's position after command `i` completes (R34). -/
def State.drawsAfter (s : State) (i : Instr) : Nat :=
  match i with
  | .keygen | .ivgen | .cbcenc => s.draws + 16
  | .keyclr | .keyset | .keyget | .encb | .decb | .padadd | .padrem | .cbcdec | .iclr => s.draws

theorem State.drawsAfter_of_drawsBytes (s : State) {i : Instr} (h : drawsBytes i) : s.drawsAfter i = s.draws + 16 := by
  rcases h with rfl | rfl | rfl <;> rfl

theorem State.drawsAfter_of_not_drawsBytes (s : State) {i : Instr} (h : ¬ drawsBytes i) : s.drawsAfter i = s.draws := by
  cases i with
  | keygen | ivgen | cbcenc => exact absurd h (by simp [drawsBytes])
  | keyclr | keyset | keyget | encb | decb | padadd | padrem | cbcdec | iclr => rfl

/-- What an output-producing command puts in OBUF, or its error (R104, R152, R153, R160, R162, R165). -/
inductive OutputResult (s : State) : Instr → Except ErrorKind (List Byte) → Prop where
  | keyget : OutputResult s .keyget (.ok s.key.toList)
  | padadd : OutputResult s .padadd (.ok (addPadding s.ibuf))
  | padrem : OutputResult s .padrem (removePadding s.ibuf)
  | ivgen : OutputResult s .ivgen (.ok (s.nextDraws Config.params).toList)
  | cbcenc : OutputResult s .cbcenc (.ok (cbcEncrypt Config.params s.rk s.ibuf (s.nextDraws Config.params)))
  | cbcdec : OutputResult s .cbcdec (cbcDecrypt Config.params s.rk s.ibuf)

/-- The states a command can lead to from `s`, by what it writes (R35, R81). -/
inductive CommandEffect (s : State) (i : Instr) : State → Prop where
  | loadsKey (hi : replacesKey i) (k : Block) :
      CommandEffect s i
        { s with key := k, rk := keySchedule Config.params k, draws := s.drawsAfter i, err := okCode }
  | keyLoadError (hi : i = .keyset) : CommandEffect s i { s with err := ErrorKind.keyLoad.code }
  | transformsBlock (hi : i = .encb ∨ i = .decb) (b : Block) : CommandEffect s i { s with blk := b, err := okCode }
  | emptiesInput (hi : i = .iclr) : CommandEffect s i { s with ibuf := [], err := okCode }
  | outputs {out : List Byte} (h : OutputResult s i (.ok out)) :
      CommandEffect s i { s with obuf := out, draws := s.drawsAfter i, err := okCode }
  | outputError {e : ErrorKind} (h : OutputResult s i (.error e)) :
      CommandEffect s i { s with obuf := [], err := e.code }

/-- The output template, for the commands that can fail and draw nothing. -/
theorem commandEffect_produce {s : State} {i : Instr} {r : Except ErrorKind (List Byte)} (h : OutputResult s i r)
    (hi : s.drawsAfter i = s.draws) : CommandEffect s i (s.produce r) := by
  cases r with
  | ok out =>
    have heffect := CommandEffect.outputs h
    rwa [hi] at heffect
  | error e => exact .outputError h

theorem commandEffect_of_exec {i : Instr} {s t : State} (h : exec i s = .next t) : CommandEffect s i t := by
  cases i with
  | keyclr => cases h; exact .loadsKey (.inl rfl) zeroBlock
  | keyset =>
    rcases Nat.lt_or_ge s.ibuf.length 16 with hlen | hlen
    · obtain rfl := Host.Outcome.next.inj ((exec_keyset_of_short s hlen).symm.trans h)
      exact .keyLoadError rfl
    · obtain rfl := Host.Outcome.next.inj ((exec_keyset_of_long s hlen).symm.trans h)
      exact .loadsKey (.inr (.inl rfl)) s.keyOperand
  | keygen => cases h; exact .loadsKey (.inr (.inr rfl)) (s.nextDraws Config.params)
  | encb => cases h; exact .transformsBlock (.inl rfl) (encryptBlock Config.params s.rk s.blk)
  | decb => cases h; exact .transformsBlock (.inr rfl) (decryptBlock Config.params s.rk s.blk)
  | iclr => cases h; exact .emptiesInput rfl
  | keyget => cases h; exact .outputs .keyget
  | padadd => cases h; exact .outputs .padadd
  | ivgen => cases h; exact .outputs .ivgen
  | cbcenc => cases h; exact .outputs .cbcenc
  | padrem => cases h; exact commandEffect_produce .padrem rfl
  | cbcdec => cases h; exact commandEffect_produce .cbcdec rfl

/-! ### Which commands produce output -/

theorem producesOutput_of_outputResult {s : State} {i : Instr} {r : Except ErrorKind (List Byte)}
    (h : OutputResult s i r) : producesOutput i := by
  cases h <;> simp [producesOutput]

/-- Only PADREM and CBCDEC can fail to produce their output. -/
theorem eq_padrem_or_cbcdec_of_outputResult_error {s : State} {i : Instr} {e : ErrorKind}
    (h : OutputResult s i (.error e)) : i = .padrem ∨ i = .cbcdec := by
  generalize hr : Except.error e = r at h
  cases h with
  | keyget | padadd | ivgen | cbcenc => cases hr
  | padrem => exact .inl rfl
  | cbcdec => exact .inr rfl

theorem not_producesOutput_of_replacesKey {i : Instr} (h : replacesKey i) : ¬ producesOutput i := by
  rcases h with rfl | rfl | rfl <;> simp [producesOutput]

/-! ### The frame of a command (R35) -/

theorem CommandEffect.key_rk_eq {s t : State} {i : Instr} (h : CommandEffect s i t) (hi : ¬ replacesKey i) :
    t.key = s.key ∧ t.rk = s.rk := by
  cases h with
  | loadsKey hkey => exact absurd hkey hi
  | keyLoadError | transformsBlock | emptiesInput | outputs | outputError => exact ⟨rfl, rfl⟩

theorem CommandEffect.blk_eq {s t : State} {i : Instr} (h : CommandEffect s i t) (hi : ¬ (i = .encb ∨ i = .decb)) :
    t.blk = s.blk := by
  cases h with
  | transformsBlock hblk => exact absurd hblk hi
  | loadsKey | keyLoadError | emptiesInput | outputs | outputError => rfl

theorem CommandEffect.ibuf_eq {s t : State} {i : Instr} (h : CommandEffect s i t) (hi : i ≠ .iclr) :
    t.ibuf = s.ibuf := by
  cases h with
  | emptiesInput hiclr => exact absurd hiclr hi
  | loadsKey | keyLoadError | transformsBlock | outputs | outputError => rfl

theorem CommandEffect.obuf_eq {s t : State} {i : Instr} (h : CommandEffect s i t) (hi : ¬ producesOutput i) :
    t.obuf = s.obuf := by
  cases h with
  | outputs hout | outputError hout => exact absurd (producesOutput_of_outputResult hout) hi
  | loadsKey | keyLoadError | transformsBlock | emptiesInput => rfl

theorem CommandEffect.draws_eq {s t : State} {i : Instr} (h : CommandEffect s i t) : t.draws = s.drawsAfter i := by
  cases h with
  | loadsKey | outputs => rfl
  | keyLoadError hi => subst hi; rfl
  | emptiesInput hi => subst hi; rfl
  | transformsBlock hi => obtain rfl | rfl := hi <;> rfl
  | outputError hout => obtain rfl | rfl := eq_padrem_or_cbcdec_of_outputResult_error hout <;> rfl

theorem CommandEffect.inputs_reads_eq {s t : State} {i : Instr} (h : CommandEffect s i t) :
    t.inputs = s.inputs ∧ t.reads = s.reads := by
  cases h <;> exact ⟨rfl, rfl⟩

/-- What the host reads at an address follows from the state that stands there; RK, the draws, the pending inputs and the
log of reads stand nowhere. -/
theorem readByte_congr {s t : State} (a : Addr)
    (hstatus : a.toNat = 1 → statusByte t = statusByte s)
    (hblk : 0x10 ≤ a.toNat ∧ a.toNat ≤ 0x1F → t.blk = s.blk)
    (hilen : 4 ≤ a.toNat ∧ a.toNat ≤ 7 → t.ibuf = s.ibuf)
    (hobuf : (8 ≤ a.toNat ∧ a.toNat ≤ 0xB) ∨ 0x40000000 ≤ a.toNat → t.obuf = s.obuf) :
    readByte a t = readByte a s := by
  have hregion := region_spec a
  unfold readByte
  cases hr : region a <;> rw [hr] at hregion <;> simp only at hregion ⊢
  case status => rw [hstatus hregion]
  case ilen k => rw [State.ilen, State.ilen, hilen (by omega)]
  case olen k => rw [State.olen, State.olen, hobuf (by omega)]
  case blk i => rw [hblk (by omega)]
  case window i => simp only [hobuf (by omega)]

/-! ### How long an output is (R58) -/

theorem length_lt_of_removePadding {b out : List Byte} (h : removePadding b = .ok out) : out.length < b.length := by
  obtain ⟨p, hp, -, hsplit⟩ := removePadding_ok_eq _ _ h
  rw [hsplit, List.length_append, List.length_replicate]
  omega

theorem length_lt_of_cbcDecrypt {c : Params} {rk : RoundKeys} {e out : List Byte} (h : cbcDecrypt c rk e = .ok out) :
    out.length < e.length := by
  obtain ⟨-, hr⟩ | ⟨-, -, hr⟩ | ⟨hlen, h16, -⟩ := cbcDecrypt_cases c rk e
  · cases hr.symm.trans h
  · cases hr.symm.trans h
  · obtain ⟨-, hupper⟩ := length_bounds_of_cbcDecrypt_eq_ok c rk hlen h16 h
    omega

/-- How long an output is, command by command. -/
def OutputLengthRule (ilen : Nat) (i : Instr) (olen : Nat) : Prop :=
  (i = .cbcenc → olen = 16 + 16 * (ilen / 16 + 1)) ∧ (i = .padadd → olen = 16 * (ilen / 16 + 1)) ∧
  (i = .keyget ∨ i = .ivgen → olen = 16) ∧ (i = .padrem ∨ i = .cbcdec → olen < ilen)

theorem outputLengthRule_of_outputResult {s : State} {i : Instr} {out : List Byte} (h : OutputResult s i (.ok out)) :
    OutputLengthRule s.ibuf.length i out.length := by
  generalize hr : Except.ok out = r at h
  unfold OutputLengthRule
  cases h with
  | keyget => cases hr; simp
  | padadd => cases hr; simp [addPadding_length]
  | padrem => simp [length_lt_of_removePadding hr.symm]
  | ivgen => cases hr; simp
  | cbcenc => cases hr; simp [cbcEncrypt_length, addPadding_length]
  | cbcdec => simp [length_lt_of_cbcDecrypt hr.symm]

theorem OutputLengthRule.le_add {ilen olen : Nat} {i : Instr} (h : OutputLengthRule ilen i olen)
    (hi : producesOutput i) : olen ≤ ilen + 32 := by
  obtain ⟨hcbcenc, hpadadd, hsixteen, hshorter⟩ := h
  rcases hi with rfl | rfl | rfl | rfl | rfl | rfl
  · have := hsixteen (.inl rfl); omega
  · have := hpadadd rfl; omega
  · have := hshorter (.inl rfl); omega
  · have := hsixteen (.inr rfl); omega
  · have := hcbcenc rfl; omega
  · have := hshorter (.inr rfl); omega

/-- After an output-producing command OBUF holds its output, or an error emptied it. -/
theorem CommandEffect.obuf_of_producesOutput {s t : State} {i : Instr} (h : CommandEffect s i t) (hi : producesOutput i) :
    OutputLengthRule s.ibuf.length i t.obuf.length ∨ ((i = .padrem ∨ i = .cbcdec) ∧ t.err ≠ 0 ∧ t.obuf = []) := by
  cases h with
  | loadsKey hkey => exact absurd hi (not_producesOutput_of_replacesKey hkey)
  | keyLoadError hi' | emptiesInput hi' => subst hi'; simp [producesOutput] at hi
  | transformsBlock hi' => obtain rfl | rfl := hi' <;> simp [producesOutput] at hi
  | outputs hout => exact .inl (outputLengthRule_of_outputResult hout)
  | @outputError e hout =>
    exact .inr ⟨eq_padrem_or_cbcdec_of_outputResult_error hout, e.code_ne_okCode, rfl⟩

/-- No command overflows OBUF (R58). -/
theorem CommandEffect.obuf_length_le {s t : State} {i : Instr} (h : CommandEffect s i t) (hi : producesOutput i) :
    t.obuf.length ≤ s.ibuf.length + 32 := by
  obtain hrule | ⟨-, -, hempty⟩ := h.obuf_of_producesOutput hi
  · exact hrule.le_add hi
  · simp [hempty]

/-! ### The obligations -/

/-- Settles O35: the frame rules of `CommandEffect`, field by field. -/
theorem commandsWriteOnlyTheirColumn : Obligations.CommandsWriteOnlyTheirColumn := by
  unfold Obligations.CommandsWriteOnlyTheirColumn
  intro i s t h
  have heffect := commandEffect_of_exec h
  exact ⟨heffect.key_rk_eq, fun hencb hdecb => heffect.blk_eq (not_or.2 ⟨hencb, hdecb⟩), heffect.ibuf_eq,
    heffect.obuf_eq,
    fun hi => heffect.draws_eq.trans (s.drawsAfter_of_drawsBytes hi),
    fun hi => heffect.draws_eq.trans (s.drawsAfter_of_not_drawsBytes hi), heffect.inputs_reads_eq⟩

/-- Settles O36: where the address stands outside what the command writes, the frame rules give the field read there. -/
theorem commandsChangeOnlyTheirReadableBytes : Obligations.CommandsChangeOnlyTheirReadableBytes := by
  unfold Obligations.CommandsChangeOnlyTheirReadableBytes
  intro i s t a h hstatus hblk hilen hobuf
  have heffect := commandEffect_of_exec h
  refine readByte_congr a (fun ha => absurd ha hstatus) (fun ha => heffect.blk_eq fun hi => hblk hi ha)
    (fun ha => heffect.ibuf_eq fun hi => hilen hi ha) (fun ha => heffect.obuf_eq fun hi => ?_)
  have := hobuf hi
  omega

/-- Settles O37: the only effects that leave a code other than 0 are the two errors. -/
theorem errorsArePrecise : Obligations.ErrorsArePrecise := by
  unfold Obligations.ErrorsArePrecise
  intro i s t h herr
  cases commandEffect_of_exec h with
  | keyLoadError hi => subst hi; exact ⟨fun hout => by simp [producesOutput] at hout, fun _ => rfl⟩
  | outputError hout => exact ⟨fun _ => rfl, fun hi => absurd (producesOutput_of_outputResult hout) hi⟩
  | loadsKey | transformsBlock | emptiesInput | outputs => exact absurd rfl herr

/-- Settles O39: the conditions that the table gives for codes 2 and 3 name the length alone. -/
theorem lengthErrorsDependOnLengthAlone : Obligations.LengthErrorsDependOnLengthAlone := by
  unfold Obligations.LengthErrorsDependOnLengthAlone
  intro s s' t t' hlen h h'
  have hcode := exec_leavesCodeOf_raises h
  have hcode' := exec_leavesCodeOf_raises h'
  have htooShort : Raises .cbcdec s .envelopeTooShort ↔ Raises .cbcdec s' .envelopeTooShort := by simp [Raises, hlen]
  have hmisaligned : Raises .cbcdec s .envelopeMisaligned ↔ Raises .cbcdec s' .envelopeMisaligned := by
    simp [Raises, hlen]
  exact ⟨(hcode.eq_code_iff _).trans (htooShort.trans (hcode'.eq_code_iff _).symm),
    (hcode.eq_code_iff _).trans (hmisaligned.trans (hcode'.eq_code_iff _).symm)⟩

/-- Settles O40: the length rule of each output, and an error leaves nothing in OBUF. -/
theorem outputsFitTheOutputBuffer : Obligations.OutputsFitTheOutputBuffer := by
  unfold Obligations.OutputsFitTheOutputBuffer
  intro i s t hi h
  have heffect := commandEffect_of_exec h
  have hbound := heffect.obuf_length_le hi
  obtain ⟨hcbcenc, hpadadd, hsixteen, hshorter⟩ | ⟨hfails, herr, -⟩ := heffect.obuf_of_producesOutput hi
  · refine ⟨fun hi => ⟨hcbcenc hi, hbound⟩, fun hi => ?_, hsixteen, fun hi _ => hshorter hi, fun hfit => by omega⟩
    have := hpadadd hi
    omega
  · have hclauses : (t.err = 0 → t.obuf.length < s.ibuf.length) ∧
        (s.ibuf.length ≤ Config.params.bufcap → t.obuf.length ≤ Config.params.bufcap + 32) :=
      ⟨fun hok => absurd hok herr, fun _ => by omega⟩
    rcases hfails with rfl | rfl <;> simpa using hclauses

end Sys2Proof.Machine
end

section
/-! What the host port accepts, refuses and reads, and the reset event (spec/10_state.md rule R28, spec/20_memory.md rules
R51 to R54, R61, spec/60_exceptions.md rules R195, R200, spec/70_reset_and_hazards.md rule R210). -/

namespace Sys2Proof.Machine

/-! ### Writes to IDATA (R54) -/

theorem step_of_idata_write (s : State) (b : Byte) (rest : List Input) (h : s.inputs = .move (.write 2 b) :: rest) :
    step s = pushByte Config.params b { s with inputs := rest } := by
  rw [step_of_inputs s _ _ h]
  rfl

theorem pushByte_of_lt {c : Params} {s : State} (b : Byte) (h : s.ibuf.length < c.bufcap) :
    pushByte c b s = .next (s.setIbuf (s.ibuf ++ [b])) :=
  if_pos h

theorem pushByte_of_le {c : Params} {s : State} (b : Byte) (h : c.bufcap ≤ s.ibuf.length) :
    pushByte c b s = .refused .ibufFull :=
  if_neg (Nat.not_lt.2 h)

/-! ### Which writes are accepted (R51, R53) -/

/-- A write to CMD is always accepted (R52, R212). -/
theorem exists_issueCommand_eq_next (b : Byte) (s : State) : ∃ t, issueCommand b s = .next t := by
  obtain ⟨i, -, hexec⟩ | ⟨-, hnext⟩ := issueCommand_cases b s
  · rw [hexec]
    exact exists_exec_eq_next i s
  · exact ⟨_, hnext⟩

/-- The counterpart of `readByte_cases`: a write is accepted exactly when it is legal. -/
theorem hostWrite_cases (a : Addr) (b : Byte) (s : State) :
    (legalMove s (.write a b) ∧ ∃ t, hostWrite a b s = .next t) ∨
      (¬ legalMove s (.write a b) ∧ ∃ r, hostWrite a b s = .refused r) := by
  have hregion := region_spec a
  unfold hostWrite legalMove
  cases hr : region a <;> rw [hr] at hregion <;> simp only at hregion ⊢
  case cmd => exact .inl ⟨.inl hregion, exists_issueCommand_eq_next b s⟩
  case idata =>
    rcases Nat.lt_or_ge s.ibuf.length Config.params.bufcap with hlen | hlen
    · exact .inl ⟨.inr (.inl ⟨hregion, hlen⟩), _, pushByte_of_lt b hlen⟩
    · exact .inr ⟨by omega, _, pushByte_of_le b hlen⟩
  case blk i => exact .inl ⟨by omega, _, rfl⟩
  all_goals exact .inr ⟨by omega, _, rfl⟩

/-- A legal move takes a step, and any other is refused. -/
theorem step_of_move_cases (s : State) (m : HostMove) (rest : List Input) (h : s.inputs = .move m :: rest) :
    (legalMove s m ∧ ∃ t, step s = .next t) ∨ (¬ legalMove s m ∧ ∃ r, step s = .refused r) := by
  cases m with
  | write a b =>
    rw [step_of_inputs s _ _ h]
    exact hostWrite_cases a b { s with inputs := rest }
  | read a =>
    obtain ⟨hlegal, b, hb⟩ | ⟨hillegal, r, hr⟩ := readByte_cases a s
    · exact .inl ⟨hlegal, _, step_of_read s a b rest h hb⟩
    · exact .inr ⟨hillegal, r, step_of_refused_read s a r rest h hr⟩

/-! ### The obligations -/

/-- Settles O45: of the two outcomes of a move, its legality leaves one. -/
theorem movesAreRefusedExactlyOutsideTheMap : Obligations.MovesAreRefusedExactlyOutsideTheMap := by
  unfold Obligations.MovesAreRefusedExactlyOutsideTheMap
  intro s m rest h
  obtain ⟨hlegal, hnext⟩ | ⟨hillegal, hrefused⟩ := step_of_move_cases s m rest h
  · exact ⟨fun _ => hnext, fun hnot => absurd hlegal hnot⟩
  · exact ⟨fun hlegal => absurd hlegal hillegal, fun _ => hrefused⟩

/-- Settles O46: a legal read returns a byte, and its step only logs that byte. -/
theorem hostReadsHaveNoSideEffect : Obligations.HostReadsHaveNoSideEffect := by
  unfold Obligations.HostReadsHaveNoSideEffect
  intro s a rest h hlegal
  obtain ⟨-, b, hb⟩ | ⟨hillegal, -⟩ := readByte_cases a s
  · exact ⟨b, hb, step_of_read s a b rest h hb⟩
  · exact absurd hlegal hillegal

/-- Settles O41: below the capacity the byte is appended, and at the capacity the write is refused. -/
theorem idataWriteAppends : Obligations.IdataWriteAppends := by
  unfold Obligations.IdataWriteAppends
  intro s b rest h
  rw [step_of_idata_write s b rest h]
  exact ⟨fun hlen => pushByte_of_lt b hlen, fun hlen => pushByte_of_le b hlen.ge⟩

/-- Settles O47: the three fields of the STATUS byte, and bit 7 is the key's validity. -/
theorem statusReadsErrAndKeyValidity : Obligations.StatusReadsErrAndKeyValidity := by
  unfold Obligations.StatusReadsErrAndKeyValidity
  intro s
  obtain ⟨herr, hzero, hvalid⟩ := status_fields (isValid s.key) s.err
  refine ⟨statusByte s, readByte_status s, herr, hzero, ?_⟩
  rw [← isValid_iff]
  exact Bool.eq_iff_iff.1 hvalid

/-- Settles O48: none of the fields that stand in the address map is RK. -/
theorem roundKeysCannotBeRead : Obligations.RoundKeysCannotBeRead := by
  unfold Obligations.RoundKeysCannotBeRead
  intro s rk a
  exact readByte_congr a (fun _ => rfl) (fun _ => rfl) (fun _ => rfl) (fun _ => rfl)

/-- Settles O49: the step takes the first pending input, and there is none. -/
theorem idleCoreHoldsItsState : Obligations.IdleCoreHoldsItsState := by
  unfold Obligations.IdleCoreHoldsItsState
  intro s h
  rw [step, nextInput, h]

/-- Settles O50: the step is the reset event on the state with that input taken. -/
theorem resetEventRestoresResetValues : Obligations.ResetEventRestoresResetValues := by
  unfold Obligations.ResetEventRestoresResetValues
  intro s rest h
  rw [step_of_inputs s _ _ h]
  rfl

end Sys2Proof.Machine
end

section
/-! The invariant, and which steps change KEY, RK and ERR (spec/10_state.md rules R20, R21, R26, R28, spec/60_exceptions.md
rules R180, R188). -/

namespace Sys2Proof.Machine

/-! ### The invariant -/

theorem State.Inv.of_reset (rest : List Input) (reads : List Byte) (draws : Nat) :
    ({ State.reset with inputs := rest, reads := reads, draws := draws } : State).Inv where
  schedule := rfl
  ibuf_bound := Nat.zero_le _
  obuf_bound := Nat.zero_le _
  err_legal := legalErr_okCode

theorem State.Inv.of_exec {i : Instr} {s t : State} (hs : s.Inv) (h : exec i s = .next t) : t.Inv := by
  have heffect := commandEffect_of_exec h
  refine ⟨?_, ?_, ?_, (exec_leavesCodeOf_raises h).legalErr⟩
  · cases heffect with
    | loadsKey => rfl
    | keyLoadError | transformsBlock | emptiesInput | outputs | outputError => exact hs.schedule
  · cases heffect with
    | emptiesInput => exact Nat.zero_le _
    | loadsKey | keyLoadError | transformsBlock | outputs | outputError => exact hs.ibuf_bound
  · by_cases hi : producesOutput i
    · exact (heffect.obuf_length_le hi).trans (Nat.add_le_add_right hs.ibuf_bound 32)
    · rw [heffect.obuf_eq hi]
      exact hs.obuf_bound

theorem State.Inv.of_issueCommand {b : Byte} {s t : State} (hs : s.Inv) (h : issueCommand b s = .next t) : t.Inv := by
  obtain ⟨i, -, hexec⟩ | ⟨-, hillegal⟩ := issueCommand_cases b s
  · exact hs.of_exec (hexec.symm.trans h)
  · cases hillegal.symm.trans h
    exact ⟨hs.schedule, hs.ibuf_bound, hs.obuf_bound, legalErr_code .illegalCommand⟩

theorem State.Inv.of_step {s t : State} (hs : s.Inv) (h : step s = .next t) : t.Inv := by
  obtain ⟨-, rfl⟩ | ⟨_, rest, -, hcase⟩ := step_cases s t h
  · exact hs
  obtain ⟨-, rfl⟩ | ⟨_, _, -, -, rfl⟩ | ⟨_, -, hissue⟩ | ⟨b, -, hroom, rfl⟩ | ⟨_, _, _, -, -, rfl⟩ := hcase
  · exact .of_reset rest s.reads s.draws
  · exact ⟨hs.schedule, hs.ibuf_bound, hs.obuf_bound, hs.err_legal⟩
  · have htaken : State.Inv { s with inputs := rest } := ⟨hs.schedule, hs.ibuf_bound, hs.obuf_bound, hs.err_legal⟩
    exact htaken.of_issueCommand hissue
  · have hfits : (s.ibuf ++ [b]).length ≤ Config.params.bufcap := by simpa using hroom
    exact ⟨hs.schedule, hfits, hs.obuf_bound, hs.err_legal⟩
  · exact ⟨hs.schedule, hs.ibuf_bound, hs.obuf_bound, hs.err_legal⟩

/-! ### Steps that are neither a reset nor a write to CMD -/

/-- A step other than a reset or a write to CMD leaves KEY, RK and ERR alone. -/
theorem step_reset_or_cmd_or_keeps_key_err {s t : State} (h : step s = .next t) :
    (∃ rest, s.inputs = .reset :: rest) ∨
    (∃ b rest, s.inputs = .move (.write 0 b) :: rest ∧ issueCommand b { s with inputs := rest } = .next t) ∨
    (t.key = s.key ∧ t.rk = s.rk ∧ t.err = s.err) := by
  obtain ⟨-, rfl⟩ | ⟨x, rest, hinputs, hcase⟩ := step_cases s t h
  · exact .inr (.inr ⟨rfl, rfl, rfl⟩)
  obtain ⟨rfl, -⟩ | ⟨_, _, -, -, rfl⟩ | ⟨b, rfl, hissue⟩ | ⟨_, -, -, rfl⟩ | ⟨_, _, _, -, -, rfl⟩ := hcase
  · exact .inl ⟨rest, hinputs⟩
  · exact .inr (.inr ⟨rfl, rfl, rfl⟩)
  · exact .inr (.inl ⟨b, rest, hinputs, hissue⟩)
  · exact .inr (.inr ⟨rfl, rfl, rfl⟩)
  · exact .inr (.inr ⟨rfl, rfl, rfl⟩)

/-- A write to CMD that changes KEY or RK is one of the three commands that replace the key. -/
theorem issueCommand_replacesKey_of_ne {b : Byte} {s t : State} (h : issueCommand b s = .next t)
    (hne : t.key ≠ s.key ∨ t.rk ≠ s.rk) : ∃ i, replacesKey i ∧ encode i = b := by
  obtain ⟨i, hdecode, hexec⟩ | ⟨-, hillegal⟩ := issueCommand_cases b s
  · refine ⟨i, by_contra fun hi => ?_, encode_eq_of_decode_eq_ok hdecode⟩
    obtain ⟨hkey, hrk⟩ := (commandEffect_of_exec (hexec.symm.trans h)).key_rk_eq hi
    exact hne.elim (absurd hkey) (absurd hrk)
  · cases hillegal.symm.trans h
    exact absurd hne (by simp)

/-! ### The code of a command does not depend on the code before it (R188) -/

/-- The errors raised determine the code. -/
theorem LeavesCodeOf.unique {raises : ErrorKind → Prop} {err err' : BitVec 4} (h : LeavesCodeOf raises err)
    (h' : LeavesCodeOf raises err') : err = err' := by
  obtain ⟨rfl, hnone⟩ | ⟨e, rfl, hone⟩ := h
  · obtain ⟨rfl, -⟩ | ⟨e', rfl, hone'⟩ := h'
    · rfl
    · exact absurd ((hone' e').2 rfl) (hnone e')
  · exact ((h'.eq_code_iff e).2 ((hone e).2 rfl)).symm

/-- The table's conditions do not look at ERR. -/
theorem raises_with_err (i : Instr) (s : State) (err : BitVec 4) : Raises i { s with err := err } = Raises i s := by
  funext e
  cases e <;> rfl

theorem issueCommand_with_err {b : Byte} {s t : State} (h : issueCommand b s = .next t) (err : BitVec 4) :
    ∃ t', issueCommand b { s with err := err } = .next t' ∧ t'.err = t.err := by
  obtain ⟨i, hdecode, hexec⟩ | ⟨hnone, hillegal⟩ := issueCommand_cases b s
  · obtain ⟨t', ht'⟩ := exists_exec_eq_next i { s with err := err }
    have hcode := exec_leavesCodeOf_raises (hexec.symm.trans h)
    have hcode' := exec_leavesCodeOf_raises ht'
    rw [raises_with_err] at hcode'
    exact ⟨t', (issueCommand_of_decode hdecode _).trans ht', hcode'.unique hcode⟩
  · cases hillegal.symm.trans h
    obtain ⟨i, hdecode, -⟩ | ⟨-, hillegal'⟩ := issueCommand_cases b { s with err := err }
    · exact absurd hdecode (hnone i)
    · exact ⟨_, hillegal', rfl⟩

/-! ### The obligations -/

/-- Settles O53: `State.Inv.of_step`, over the kinds of step. -/
theorem stepKeepsInvariant : Obligations.StepKeepsInvariant := by
  unfold Obligations.StepKeepsInvariant
  intro s t hs h
  exact hs.of_step h

/-- Settles O52: RK is the schedule of the zero key, both buffers are empty and ERR is 0. -/
theorem resetStateMeetsInvariant : Obligations.ResetStateMeetsInvariant := by
  unfold Obligations.ResetStateMeetsInvariant
  exact .of_reset [] [] 0

/-- Settles O54: other steps leave KEY and RK, and a write to CMD changes them only by a command that replaces the key. -/
theorem onlyKeyCommandsChangeTheKey : Obligations.OnlyKeyCommandsChangeTheKey := by
  unfold Obligations.OnlyKeyCommandsChangeTheKey
  intro s t h hne
  obtain ⟨rest, hreset⟩ | ⟨b, rest, hcmd, hissue⟩ | ⟨hkey, hrk, -⟩ := step_reset_or_cmd_or_keeps_key_err h
  · exact ⟨rest, .inl hreset⟩
  · obtain ⟨i, hi, rfl⟩ := issueCommand_replacesKey_of_ne hissue hne
    exact ⟨rest, .inr ⟨i, hi, hcmd⟩⟩
  · simp [hkey, hrk] at hne

/-- Settles O55: other steps leave ERR, and a command's code is that of the errors it raises, which do not depend on ERR. -/
theorem onlyCommandsWriteErr : Obligations.OnlyCommandsWriteErr := by
  unfold Obligations.OnlyCommandsWriteErr
  intro s t h
  constructor
  · intro hne
    obtain ⟨rest, hreset⟩ | ⟨b, rest, hcmd, -⟩ | ⟨-, -, herr⟩ := step_reset_or_cmd_or_keeps_key_err h
    · exact ⟨rest, .inl hreset⟩
    · exact ⟨rest, .inr ⟨b, hcmd⟩⟩
    · exact absurd herr hne
  · intro b rest e hcmd
    rw [step_of_cmd_write { s with err := e } b rest hcmd]
    exact issueCommand_with_err ((step_of_cmd_write s b rest hcmd).symm.trans h) e

end Sys2Proof.Machine
end

section
/-! The schedules of the constant keys, and what the block transforms do to a block: they undo each other, and they keep the
XOR of a half's words (spec/42_key_schedule.md rule R136, spec/43_block_cipher.md rules R143, R146). -/

namespace Sys2Proof.Machine

/-! ### Schedules of keys whose pairs no rotation changes (R136) -/

theorem rotate_of_equal_bits {v : DWord} {b : Bool} (h : ∀ i, i < 64 → v.getLsbD i = b) (r : Nat) :
    v.rotateLeft r = v ∧ v.rotateRight r = v := by
  constructor <;> refine BitVec.eq_of_getLsbD_eq fun i hi => ?_
  · rw [rotateLeft_getLsbD _ _ _ hi, h _ (Nat.mod_lt _ (by decide)), h i hi]
  · rw [rotateRight_getLsbD _ _ _ hi, h _ (Nat.mod_lt _ (by decide)), h i hi]

/-- Where both pairs hold `v`, whose bits are all equal, every round computes from `v` itself. -/
theorem keySchedule_of_equal_bits (c : Params) (k : Block) (i : Fin 16) {v : DWord} {b : Bool}
    (hbits : ∀ i, i < 64 → v.getLsbD i = b) (hA : pair (wordAt k 0) (wordAt k 1) = v)
    (hB : pair (wordAt k 2) (wordAt k 3) = v) :
    (keySchedule c k)[2 * i.val]'(by omega) = G c (hiWord v + hiWord v - c.KC i) ∧
    (keySchedule c k)[2 * i.val + 1]'(by omega) = G c (c.KC i) := by
  obtain ⟨hleft, hright⟩ := foldl_rotateKeyWords_pairs (keyWords k) i.val i.isLt.le
  replace hleft := hleft.trans ((congrArg (BitVec.rotateLeft · _) hA).trans (rotate_of_equal_bits hbits _).1)
  replace hright := hright.trans ((congrArg (BitVec.rotateRight · _) hB).trans (rotate_of_equal_bits hbits _).2)
  obtain ⟨hT0, hT1⟩ := scheduleT0_scheduleT1_of_pairs c i hleft hright
  have hT1' : loWord v - loWord v + c.KC i = c.KC i := by ring
  exact ⟨(keySchedule_getElem_even c k i).trans (congrArg (G c) hT0),
    (keySchedule_getElem_odd c k i).trans (congrArg (G c) (hT1.trans hT1'))⟩

/-! ### The XOR of a half's two words (R146) -/

/-- The XOR of the two words of each half, the left half first. -/
def halfXors (w : BlockWords) : Word × Word := (w.L0 ^^^ w.L1, w.R0 ^^^ w.R1)

/-- Both words of the new right half take the same Word f, which cancels; the halves change places. -/
theorem halfXors_feistelRound (c : Params) (rk : RoundKeys) (w : BlockWords) (i : Fin 16) :
    halfXors (feistelRound c rk w i) = (halfXors w).swap := by
  have hcancel (x y f : Word) : (x ^^^ f) ^^^ (y ^^^ f) = x ^^^ y := by
    rw [BitVec.xor_comm y, BitVec.xor_assoc, ← BitVec.xor_assoc f, BitVec.xor_self, BitVec.zero_xor]
  exact congrArg (Prod.mk _) (hcancel _ _ _)

theorem halfXors_foldl_feistelRound (c : Params) (rk : RoundKeys) (w : BlockWords) (is : List (Fin 16)) :
    halfXors (is.foldl (feistelRound c rk) w) = Prod.swap^[is.length] (halfXors w) := by
  induction is generalizing w with
  | nil => rfl
  | cons i is ih => rw [List.foldl_cons, ih, halfXors_feistelRound, List.length_cons, Function.iterate_succ_apply]

/-- Sixteen rounds leave the halves' XORs where they were, and the output order exchanges them. -/
theorem halfXors_blockTransform {c : Params} {rk : RoundKeys} {b d : Block}
    (h : d = encryptBlock c rk b ∨ d = decryptBlock c rk b) :
    halfXors (blockWords d) = (halfXors (blockWords b)).swap := by
  have hswap : Prod.swap^[16] (halfXors (blockWords b)) = halfXors (blockWords b) := rfl
  have hrounds (is : List (Fin 16)) (hlen : is.length = 16) :
      halfXors (blockWords (outputBlock (is.foldl (feistelRound c rk) (blockWords b)))) =
        (halfXors (blockWords b)).swap := by
    have hkept := halfXors_foldl_feistelRound c rk (blockWords b) is
    rw [hlen, hswap] at hkept
    rw [blockWords_outputBlock]
    exact congrArg Prod.swap hkept
  obtain rfl | rfl := h
  · exact hrounds rounds rfl
  · exact hrounds rounds.reverse rfl

/-! ### The obligations -/

/-- Settles O13: each key's two pairs are 64 equal bits, and `0xFFFFFFFF + 0xFFFFFFFF` is `0xFFFFFFFE`. -/
theorem schedulesOfZeroAndOnesKeys : Obligations.SchedulesOfZeroAndOnesKeys := by
  unfold Obligations.SchedulesOfZeroAndOnesKeys
  intro c i
  obtain ⟨hzeroT0, hzeroT1⟩ := keySchedule_of_equal_bits c (Vector.replicate 16 0) i (v := 0) (b := false)
    (fun j _ => BitVec.getLsbD_zero) (by decide) (by decide)
  obtain ⟨honesT0, honesT1⟩ := keySchedule_of_equal_bits c (Vector.replicate 16 0xFF) i (v := BitVec.allOnes 64)
    (b := true) (fun j hj => BitVec.getLsbD_allOnes.trans (decide_eq_true hj)) (by decide) (by decide)
  exact ⟨hzeroT0, hzeroT1, honesT0, honesT1⟩

/-- Settles O15: the rounds in opposite orders undo each other. -/
theorem blockTransformsInvertEachOther : Obligations.BlockTransformsInvertEachOther := by
  unfold Obligations.BlockTransformsInvertEachOther
  intro c rk b
  exact ⟨decryptBlock_encryptBlock c rk b, encryptBlock_decryptBlock c rk b⟩

/-- Settles O16: each round exchanges the XORs of the halves, and so does each transform. -/
theorem halfXorSurvivesTransforms : Obligations.HalfXorSurvivesTransforms := by
  unfold Obligations.HalfXorSurvivesTransforms
  intro c rk
  constructor
  · intro w i w'
    obtain ⟨hleft, hright⟩ := Prod.ext_iff.1 (halfXors_feistelRound c rk w i)
    exact ⟨hright, hleft⟩
  · intro b d h
    exact Prod.ext_iff.1 (halfXors_blockTransform h)

end Sys2Proof.Machine
end

section
/-! The round trips of the padding and of CBC, and what tampering with the IV does (spec/44_padding.md rule R154,
spec/45_iv_cbc.md rules R166, R169). -/

namespace Sys2Proof.Machine

/-! ### Padding (R154) -/

theorem padByte_toNat (n : Nat) : (BitVec.ofNat 8 (padLength n)).toNat = padLength n := by
  obtain ⟨-, hupper⟩ := padLength_bounds n
  rw [BitVec.toNat_ofNat]
  exact Nat.mod_eq_of_lt (by omega)

theorem addPadding_getLast? (s : List Byte) :
    (addPadding s).getLast? = some (BitVec.ofNat 8 (padLength s.length)) := by
  obtain ⟨hlower, -⟩ := padLength_bounds s.length
  rw [addPadding, List.getLast?_append, List.getLast?_replicate, if_neg (by omega), Option.some_or]

theorem addPadding_length_sub (s : List Byte) : (addPadding s).length - padLength s.length = s.length := by
  rw [addPadding, List.length_append, List.length_replicate, Nat.add_sub_cancel]

/-- The bytes that AddPadding appends pass the tests of the validator. -/
theorem not_badTrailer_addPadding (s : List Byte) :
    ¬ BadTrailer (addPadding s) (BitVec.ofNat 8 (padLength s.length)) := by
  obtain ⟨hlower, hupper⟩ := padLength_bounds s.length
  have hlen := addPadding_length_sub s
  rw [not_badTrailer_iff, padByte_toNat, hlen]
  refine ⟨by omega, by omega, ?_, ?_⟩
  · rw [addPadding, List.length_append, List.length_replicate]
    omega
  · rw [addPadding, List.drop_left]
    simp

theorem removePadding_addPadding (s : List Byte) : removePadding (addPadding s) = .ok s := by
  rw [removePadding_of_not_badTrailer (addPadding_getLast? s) (not_badTrailer_addPadding s), padByte_toNat,
    addPadding_length_sub, addPadding, List.take_left]

/-! ### CBC (R166) -/

/-- Each decrypted block is XORed with the block it was chained to, so the chain gives its plaintext blocks back. -/
theorem decryptChain_encryptChain (c : Params) (rk : RoundKeys) (prev : Block) (bs : List Block) :
    decryptChain c rk prev (blocks bs.length (encryptChain c rk prev bs)) = bs.flatMap Vector.toList := by
  induction bs generalizing prev with
  | nil => rfl
  | cons b bs ih =>
    rw [encryptChain, List.length_cons, blocks_succ, blockAt_zero_append, List.drop_left' Vector.length_toList,
      decryptChain, decryptBlock_encryptBlock, xor16_xor16_cancel, ih, List.flatMap_cons]

/-- The assembled plaintext of an envelope is the padded plaintext. -/
theorem assembledPlaintext_cbcEncrypt (c : Params) (rk : RoundKeys) (s : List Byte) (iv : Block) :
    assembledPlaintext c rk (cbcEncrypt c rk s iv) = addPadding s := by
  have hlen := addPadding_length s
  have hcount : (cbcEncrypt c rk s iv).length / 16 - 1 = (blocks ((addPadding s).length / 16) (addPadding s)).length := by
    rw [cbcEncrypt_length, blocks_length]
    omega
  rw [assembledPlaintext, hcount, cbcEncrypt, blockAt_zero_append, List.drop_left' Vector.length_toList,
    decryptChain_encryptChain, blocks_flatMap_toList _ _ (by omega)]

theorem cbcDecrypt_cbcEncrypt (c : Params) (rk : RoundKeys) (s : List Byte) (iv : Block) :
    cbcDecrypt c rk (cbcEncrypt c rk s iv) = .ok s := by
  have hlen := cbcEncrypt_length c rk s iv
  have hpad := addPadding_length s
  rw [cbcDecrypt_of_whole_blocks c rk (by omega) (by omega), assembledPlaintext_cbcEncrypt, removePadding_addPadding]

theorem cbcEncrypt_length_le (c : Params) (rk : RoundKeys) (s : List Byte) (iv : Block) :
    (cbcEncrypt c rk s iv).length ≤ s.length + 32 := by
  have hpad := addPadding_length s
  rw [cbcEncrypt_length]
  omega

/-! ### Tampering with the IV (R169) -/

/-- The IV is XORed into the first block alone. -/
theorem decryptChain_set_iv (c : Params) (rk : RoundKeys) (iv b : Block) (bs : List Block) (i : Nat) (hi : i < 16)
    (m : Byte) :
    decryptChain c rk (iv.set i (iv[i] ^^^ m)) (b :: bs) =
      (decryptChain c rk iv (b :: bs)).set i ((xor16 (decryptBlock c rk b) iv)[i] ^^^ m) := by
  rw [decryptChain, decryptChain, xor16_set_right, Vector.toList_set, List.set_append_left _ _ (by simpa using hi)]

theorem decryptChain_cons_getElem? (c : Params) (rk : RoundKeys) (prev b : Block) (bs : List Block) (i : Nat)
    (hi : i < 16) : (decryptChain c rk prev (b :: bs))[i]? = some (xor16 (decryptBlock c rk b) prev)[i] := by
  rw [decryptChain, List.getElem?_append_left (by simpa using hi), Vector.getElem?_toList, Vector.getElem?_eq_getElem hi]

theorem blockAt_zero_getElem {e : List Byte} {i : Nat} (hi : i < 16) {v : Byte} (h : e[i]? = some v) :
    (blockAt e 0)[i] = v := by
  rw [blockAt_eq_blockOf_drop, blockOf, bytes16_getElem_nat, List.getD_eq_getElem?_getD]
  simp [h]

/-- An envelope of 32 bytes or more has a first ciphertext block. -/
theorem assembledPlaintext_eq_decryptChain_cons (c : Params) (rk : RoundKeys) {e : List Byte} (h : 32 ≤ e.length) :
    assembledPlaintext c rk e =
      decryptChain c rk (blockAt e 0) (blockAt (e.drop 16) 0 :: blocks (e.length / 16 - 2) ((e.drop 16).drop 16)) := by
  have hcount : e.length / 16 - 1 = (e.length / 16 - 2) + 1 := by omega
  rw [assembledPlaintext, hcount, blocks_succ]

/-! ### The obligations -/

/-- Settles O21: the bytes appended are a good trailer, and the validator takes them off; the counterexample is computed. -/
theorem removePaddingUndoesAddPadding : Obligations.RemovePaddingUndoesAddPadding := by
  unfold Obligations.RemovePaddingUndoesAddPadding
  exact ⟨removePadding_addPadding, rfl, rfl⟩

/-- Settles O30: CBC and the padding give the plaintext back under any round keys, and CBCENC leaves RK as it was. -/
theorem cbcRoundTrip : Obligations.CbcRoundTrip := by
  unfold Obligations.CbcRoundTrip
  refine ⟨fun c k s iv => cbcDecrypt_cbcEncrypt c _ s iv, fun s => ⟨_, exec_cbcenc s, ?_, fun hfit => ?_⟩⟩
  · exact exec_cbcdec_of_ok (cbcDecrypt_cbcEncrypt Config.params s.rk s.ibuf _)
  · exact (cbcEncrypt_length_le _ _ s.ibuf _).trans hfit

/-- Settles O32: the mask goes through the XOR of the IV into the first block. -/
theorem ivTamperingFlipsOneByteOfFirstBlock : Obligations.IvTamperingFlipsOneByteOfFirstBlock := by
  unfold Obligations.IvTamperingFlipsOneByteOfFirstBlock
  intro c rk e i m old hlen hi hold
  have hlen' : 32 ≤ (e.set i (old ^^^ m)).length := by rwa [List.length_set]
  obtain rfl := blockAt_zero_getElem hi hold
  rw [assembledPlaintext_eq_decryptChain_cons c rk hlen, assembledPlaintext_eq_decryptChain_cons c rk hlen']
  refine ⟨_, decryptChain_cons_getElem? c rk _ _ _ i hi, ?_⟩
  rw [List.length_set, List.drop_set_of_lt hi, blockAt_zero_set e i hi (by omega)]
  exact decryptChain_set_iv c rk (blockAt e 0) _ _ i hi m

end Sys2Proof.Machine
end

section
/-! What the script lines do, and the scripts built of them (spec/30_encoding.md rule R86, spec/45_iv_cbc.md rule R166). -/

namespace Sys2Proof.Machine

/-! ### The bytes that the reading lines return -/

/-- The four bytes GETOUT reads of OLEN, most significant first (R55, R86). -/
def olenBytes (s : State) : List Byte := [24, 16, 8, 0].map fun k => BitVec.ofNat 8 (s.obuf.length / 2 ^ k)

theorem olenBytes_length (s : State) : (olenBytes s).length = 4 := rfl

theorem olenBytes_of_sixteen {s : State} (h : s.obuf.length = 16) : olenBytes s = [0, 0, 0, 16] := by
  rw [olenBytes, h]
  rfl

/-- The addresses of OLEN (R53). -/
def olenAddrs : List Addr := (List.range 4).map fun k => BitVec.ofNat 32 (0x08 + k)

/-- The first `n` addresses of the OBUF window (R53, R57). -/
def windowAddrs (n : Nat) : List Addr := (List.range n).map fun i => BitVec.ofNat 32 (0x40000000 + i)

/-- The addresses of BLK (R53). -/
def blkAddrs : List Addr := (List.range 16).map fun i => BitVec.ofNat 32 (0x10 + i)

theorem readByte_olenAddrs (s : State) : olenAddrs.map (readByte · s) = (olenBytes s).map .ok := by
  have hbyte (k : Fin 4) := readByte_olen s k
  exact congrArg₂ _ (hbyte 0) (congrArg₂ _ (hbyte 1) (congrArg₂ _ (hbyte 2) (congrArg₂ _ (hbyte 3) rfl)))

theorem readByte_windowAddrs (s : State) (h : s.obuf.length ≤ 2 ^ 30) :
    (windowAddrs s.obuf.length).map (readByte · s) = s.obuf.map .ok := by
  refine List.ext_getElem (by simp [windowAddrs]) fun i hi _ => ?_
  have hlen : i < s.obuf.length := by simpa [windowAddrs] using hi
  simpa [windowAddrs] using readByte_window s i (by omega) hlen

theorem readByte_blkAddrs (s : State) : blkAddrs.map (readByte · s) = s.blk.toList.map .ok := by
  refine List.ext_getElem (by simp [blkAddrs]) fun i hi _ => ?_
  have hlen : i < 16 := by simpa [blkAddrs] using hi
  simpa [blkAddrs] using readByte_blk s ⟨i, hlen⟩

/-! ### What each line does -/

/-- A line of reads logs the bytes read and changes nothing else. -/
theorem scriptRuns_reads (l : ScriptLine) (s : State) (as : List Addr) (bs : List Byte) (hs : stated l s)
    (has : expand l s = as.map .read) (hbs : as.map (readByte · s) = bs.map .ok) (ls : List ScriptLine) (t : State) :
    scriptRuns (l :: ls) s t ↔ scriptRuns ls { s with reads := s.reads ++ bs } t := by
  refine scriptRuns_line l s _ hs ?_ ls t
  have hread := runSteps_reads as bs (s.withMoves (as.map .read)) s.inputs (by simp) hbs 0
  rw [has, List.length_map]
  exact hread

theorem scriptRuns_getblk (s : State) (ls : List ScriptLine) (t : State) :
    scriptRuns (.getblk :: ls) s t ↔ scriptRuns ls { s with reads := s.reads ++ s.blk.toList } t :=
  scriptRuns_reads .getblk s blkAddrs s.blk.toList trivial (by simp [expand, getblkMoves, blkAddrs])
    (readByte_blkAddrs s) ls t

/-- GETOUT reads OLEN and then the window; the bound keeps the window within the address map (R57). -/
theorem scriptRuns_getout (s : State) (h : s.obuf.length ≤ 2 ^ 30) (ls : List ScriptLine) (t : State) :
    scriptRuns (.getout :: ls) s t ↔ scriptRuns ls { s with reads := s.reads ++ (olenBytes s ++ s.obuf) } t := by
  refine scriptRuns_reads .getout s (olenAddrs ++ windowAddrs s.obuf.length) (olenBytes s ++ s.obuf) trivial ?_ ?_ ls t
  · simp [expand, getlenMoves, windowMoves, olenAddrs, windowAddrs, State.olen, Function.comp_def]
  · rw [List.map_append, List.map_append, readByte_olenAddrs, readByte_windowAddrs s h]

theorem scriptRuns_setblk (b : Block) (s : State) (ls : List ScriptLine) (t : State) :
    scriptRuns (.setblk b :: ls) s t ↔ scriptRuns ls { s with blk := b } t := by
  refine scriptRuns_line (.setblk b) s _ trivial ?_ ls t
  have hwrite := runSteps_setblk b 16 le_rfl (s.withMoves (setblkMoves b)) s.inputs 0
    (by simp [setblkMoves, List.range_eq_range']) (fun i _ hi => absurd hi (by omega))
  have hlen : (expand (.setblk b) s).length = 16 := by simp [expand, setblkMoves]
  rw [hlen]
  exact hwrite

/-- LOADI is ICLR and then the bytes, which fit in the emptied IBUF. -/
theorem scriptRuns_loadi (bs : List Byte) (h : bs.length ≤ Config.params.bufcap) (s : State) (ls : List ScriptLine)
    (t : State) : scriptRuns (.loadi bs :: ls) s t ↔ scriptRuns ls { s with ibuf := bs, err := 0 } t := by
  refine scriptRuns_line (.loadi bs) s _ trivial ?_ ls t
  have hiclr : step (s.withMoves (expand (.loadi bs) s)) = .next (iclr (s.withMoves (pushMoves bs))) := by
    rw [step_of_cmd_write _ (encode .iclr) _ rfl, issueCommand_of_decode (decode_encode .iclr)]
    rfl
  have hpush := runSteps_pushes bs (iclr (s.withMoves (pushMoves bs))) s.inputs rfl (by simpa [iclr] using h) 0
  have hlen : (expand (.loadi bs) s).length = bs.length + 1 := by simp [expand, pushMoves]
  rw [hlen, runSteps_succ _ _ _ hiclr]
  exact hpush

theorem stated_draws_iff (d : Block) (s : State) :
    stated (.draws d) s ↔ ∀ i : Fin 16, Config.params.draw (s.draws + i.val) = d[i] := by
  simp only [← State.nextDraws_getElem]
  constructor
  · rintro rfl i
    rfl
  · exact block_ext _ d

/-- A DRAWS line makes no move: it only says what the oracle answers. -/
theorem scriptRuns_draws (d : Block) (s : State) (ls : List ScriptLine) (t : State) :
    scriptRuns (.draws d :: ls) s t ↔ stated (.draws d) s ∧ scriptRuns ls s t := by
  rw [scriptRuns_cons]
  refine and_congr_right fun _ => ?_
  constructor
  · rintro ⟨u, hu, ht⟩
    cases hu
    exact ht
  · exact fun ht => ⟨s, rfl, ht⟩

/-! ### Commands and then GETOUT -/

/-- A command whose output fits the window, read out. -/
theorem scriptRuns_cmd_getout {i : Instr} {s t : State} (h : exec i s = .next t) (hlen : t.obuf.length ≤ 2 ^ 30)
    (u : State) :
    scriptRuns [.cmd i, .getout] s u ↔ u = { t with reads := s.reads ++ (olenBytes t ++ t.obuf) } := by
  obtain ⟨-, hreads⟩ := (commandEffect_of_exec h).inputs_reads_eq
  rw [scriptRuns_cmd i s t h, scriptRuns_getout t hlen, scriptRuns_nil, hreads]

/-- A command whose output is one block, read out: OLEN is 16. -/
theorem scriptRuns_cmd_getout_block {i : Instr} {s t : State} {d : Block} (h : exec i s = .next t)
    (hobuf : t.obuf = d.toList) :
    scriptRuns [.cmd i, .getout] s { t with reads := s.reads ++ [0, 0, 0, 16] ++ d.toList } := by
  have hlen : t.obuf.length = 16 := by rw [hobuf, Vector.length_toList]
  rw [scriptRuns_cmd_getout h (by omega), olenBytes_of_sixteen hlen, hobuf, List.append_assoc]

/-- The bytes that a GETOUT adds after the four of OLEN. -/
theorem drop_reads_olenBytes (s t : State) (bs : List Byte) :
    (s.reads ++ (olenBytes t ++ bs)).drop (s.reads.length + 4) = bs := by
  rw [← List.append_assoc, ← olenBytes_length t, ← List.length_append, List.drop_left]

/-! ### The obligations -/

/-- Settles O56: what the LOADI line does, alone. -/
theorem loadiScriptLoadsBuffer : Obligations.LoadiScriptLoadsBuffer := by
  unfold Obligations.LoadiScriptLoadsBuffer
  intro s t bs h
  exact scriptRuns_loadi bs h s [] t

/-- Settles O57: GETBLK reads the block that SETBLK left. -/
theorem setblkGetblkScriptReadsBack : Obligations.SetblkGetblkScriptReadsBack := by
  unfold Obligations.SetblkGetblkScriptReadsBack
  intro s t b
  rw [scriptRuns_setblk, scriptRuns_getblk, scriptRuns_nil]

/-- Settles O58: the invariant keeps the window within the address map. -/
theorem getoutScriptReadsOutput : Obligations.GetoutScriptReadsOutput := by
  unfold Obligations.GetoutScriptReadsOutput
  intro s t hInv
  rw [scriptRuns_getout s hInv.obuf_length_le, scriptRuns_nil, List.append_assoc]
  rfl

/-- Settles O59: a DRAWS line only fixes `State.nextDraws`, which the three commands use. -/
theorem drawsScriptStatesTheOraclesAnswers : Obligations.DrawsScriptStatesTheOraclesAnswers := by
  unfold Obligations.DrawsScriptStatesTheOraclesAnswers
  intro s d
  constructor
  · intro t
    rw [scriptRuns_draws, stated_draws_iff, scriptRuns_nil]
  · intro hd
    have hstated : stated (.draws d) s := (stated_draws_iff d s).2 hd
    simp only [scriptRuns_draws, hstated, true_and]
    obtain rfl : s.nextDraws Config.params = d := hstated
    have hkeygen := scriptRuns_cmd .keygen s _ (exec_keygen s)
    have hcbcenc := scriptRuns_cmd .cbcenc s _ (exec_cbcenc s)
    exact ⟨⟨_, (hkeygen _ _).2 (scriptRuns_cmd_getout_block (exec_keyget _) rfl), rfl, rfl⟩,
      ⟨_, scriptRuns_cmd_getout_block (exec_ivgen s) rfl, rfl⟩, ⟨_, (hcbcenc _ _).2 rfl, rfl⟩⟩

/-- Settles O31: GETOUT after CBCENC reads the envelope, which fits IBUF; loaded back, it decrypts under the same RK. -/
theorem hostScriptRoundTrip : Obligations.HostScriptRoundTrip := by
  unfold Obligations.HostScriptRoundTrip
  intro s hfit
  have hcap := bufcap_upper
  have henv := cbcEncrypt_length_le Config.params s.rk s.ibuf (s.nextDraws Config.params)
  have hdecrypt := cbcDecrypt_cbcEncrypt Config.params s.rk s.ibuf (s.nextDraws Config.params)
  refine ⟨_, _, cbcEncrypt Config.params s.rk s.ibuf (s.nextDraws Config.params),
    (scriptRuns_cmd_getout (exec_cbcenc s) (henv.trans (by omega)) _).2 rfl, drop_reads_olenBytes _ _ _,
    (scriptRuns_loadi _ (henv.trans hfit) _ _ _).2
      ((scriptRuns_cmd_getout (exec_cbcdec_of_ok hdecrypt) (show s.ibuf.length ≤ 2 ^ 30 by omega) _).2 rfl),
    drop_reads_olenBytes _ _ _, rfl, rfl, rfl, rfl, rfl, rfl, rfl⟩

end Sys2Proof.Machine
end
